-- ==== Sys2Proof/Word.lean ====
section
/-!
DEFINITION. The word of the vsembly CORE: what a memory cell, a register and an operand word hold.

A word is a signed integer of W bits (00_scope.md R9), and W is an OPEN parameter of the instance (R7, D1).
So a word is written as an `Int`, its signed value, and `Word.fits W` says that it is a W-bit word. No rule of the
spec adds, shifts, masks or slices a word, and every comparison is on its signed value (R9), so nothing can wrap.
-/

namespace Sys2Proof

/-- `v` is a W-bit two's-complement word: it lies in `-2^(W-1) .. 2^(W-1)-1` (00_scope.md R9). -/
def Word.fits (W : Nat) (v : Int) : Bool :=
  decide (-(2 ^ (W - 1) : Int) ≤ v) && decide (v < (2 ^ (W - 1) : Int))

end Sys2Proof
end

