-- ==== Sys2Proof/Config.lean ====
section
/-!
DEFINITION. The parameters of an instance of the hardware (00_scope.md R7).

They are open or unaudited in the spec (D1, D2, D3), so no definition of the model fixes one: the state carries
its instance's parameters, and a statement about every state is a statement about every instance.
STEP_LATENCY, HOST_PROTOCOL and HOST_BYTE_ORDER are left out: no rule depends on them (notes/assumptions/13.md).
-/

namespace Sys2Proof

/-- The parameters of one instance, each fixed for that instance (00_scope.md R7). -/
structure Params where
  /-- `W`: the width in bits of every cell, register and operand word (D1). -/
  wordBits : Nat
  /-- `MEM_SIZE`: the number of memory cells (D2). -/
  memSize : Nat
  /-- `IP_WIDTH`: the width in bits of the instruction pointer (D3). -/
  ipWidth : Nat
  deriving DecidableEq, Repr

/-- The constraints of 00_scope.md R7: `1 <= MEM_SIZE <= 2^(W-1)`, and IP_WIDTH bits hold every value
`0..MEM_SIZE`. That W is at least 1 is DEDUCED from "width in bits" (notes/assumptions/1.md; safe). -/
def Params.wf (p : Params) : Bool :=
  decide (1 ≤ p.wordBits) && decide (1 ≤ p.memSize) && decide (p.memSize ≤ 2 ^ (p.wordBits - 1)) &&
    decide (p.memSize < 2 ^ p.ipWidth)

/-- The values 00_scope.md R7 names: the reference W, the documented MEM_SIZE and its IP_WIDTH.
DESIGN CHOICE that `State.reset` is the reset of this instance; unsafe (notes/assumptions/1.md, 2.md, 3.md). -/
def Params.documented : Params where
  wordBits := 32
  memSize := 1048576
  ipWidth := 21

end Sys2Proof
end

