-- ==== Sys2Proof/Syntax.lean ====
section
/-!
DEFINITION. The seven instructions of the vsembly CORE, one constructor per row of spec/opcode_table.json
(30_encoding.md R56).

An operand is one whole word, kept as it stands in memory: an operand out of range for its kind faults when the
instruction executes, not when it decodes (R52, R58), so the syntax does not exclude it.
-/

namespace Sys2Proof

/-- The instructions, with the operand words w1 and w2 named by the kinds of 30_encoding.md R56. -/
inductive Instr where
  /-- NOP, opcode 0 (41_nop.md R78). -/
  | nop
  /-- MOV reg, imm, opcode 1 (42_mov_register.md R79). -/
  | movRImm (target value : Int)
  /-- MOV reg, reg, opcode 2 (42_mov_register.md R80). -/
  | movRR (target source : Int)
  /-- MOV reg, [addr], opcode 3 (43_mov_load.md R81). -/
  | movRMem (target address : Int)
  /-- MOV reg, [reg], opcode 4 (43_mov_load.md R82). -/
  | movRInd (target addrReg : Int)
  /-- MOV [addr], reg, opcode 5 (44_mov_store.md R83). -/
  | movMemR (address source : Int)
  /-- MOV [reg], reg, opcode 6 (44_mov_store.md R84). -/
  | movIndR (addrReg source : Int)
  deriving DecidableEq, Repr

/-- The opcodes the dispatch table selects (40_dispatch.md R65). -/
inductive Opcode where
  | nop
  | movRImm
  | movRR
  | movRMem
  | movRInd
  | movMemR
  | movIndR
  deriving DecidableEq, Repr

/-- The opcode an instruction is of. -/
def Instr.opcode : Instr → Opcode
  | .nop => .nop
  | .movRImm _ _ => .movRImm
  | .movRR _ _ => .movRR
  | .movRMem _ _ => .movRMem
  | .movRInd _ _ => .movRInd
  | .movMemR _ _ => .movMemR
  | .movIndR _ _ => .movIndR

end Sys2Proof
end

