-- ==== Sys2Proof/Decode.lean ====
section
/-!
DEFINITION. Decoding and encoding (30_encoding.md), over words and over bits.

`decode` is total on any list of words: the instruction that starts at the head, or the reason there is none.
`encode` is written from the same opcode map. Bits enter only where a host packs words into a number
(`decodeBits`, `decodeTableWord`): the machine itself moves whole words and has no byte order (20_memory.md R37).
-/

namespace Sys2Proof

/-- Int 0 of each opcode: the opcode map of 30_encoding.md R56. -/
def Opcode.value : Opcode → Int
  | .nop => 0
  | .movRImm => 1
  | .movRR => 2
  | .movRMem => 3
  | .movRInd => 4
  | .movMemR => 5
  | .movIndR => 6

/-- The number of operand words of each opcode: 0 for opcode 0, 2 for the others (40_dispatch.md R66). -/
def Opcode.arity : Opcode → Nat
  | .nop => 0
  | .movRImm => 2
  | .movRR => 2
  | .movRMem => 2
  | .movRInd => 2
  | .movMemR => 2
  | .movIndR => 2

/-- The fixed dispatch table indexed 0 to 6 (40_dispatch.md R65). -/
def dispatchTable : List Opcode :=
  [.nop, .movRImm, .movRR, .movRMem, .movRInd, .movMemR, .movIndR]

/-- The opcode a whole opcode word selects by its signed value, if any (30_encoding.md R51). -/
def Opcode.ofWord? (v : Int) : Option Opcode :=
  dispatchTable.find? fun o => decide (o.value = v)

/-- The instruction of an opcode with operand words w1 and w2, in the word order of 30_encoding.md R56. -/
def Opcode.build : Opcode → Int → Int → Instr
  | .nop, _, _ => .nop
  | .movRImm, w1, w2 => .movRImm w1 w2
  | .movRR, w1, w2 => .movRR w1 w2
  | .movRMem, w1, w2 => .movRMem w1 w2
  | .movRInd, w1, w2 => .movRInd w1 w2
  | .movMemR, w1, w2 => .movMemR w1 w2
  | .movIndR, w1, w2 => .movIndR w1 w2

/-- Why a list of words starts with no instruction. -/
inductive DecodeError where
  /-- There is no opcode word at all (40_dispatch.md R64). -/
  | noOpcode
  /-- The opcode word is outside 0 to 6 (40_dispatch.md R65; 30_encoding.md R58). -/
  | illegalOpcode (v : Int)
  /-- Operand word `k`, 1 or 2, is the first that is missing (40_dispatch.md R67). -/
  | missingOperand (k : Nat)
  deriving DecidableEq, Repr

/-- The instruction that starts at the head of a list of words. The opcode word alone decides the length
(30_encoding.md R49, R59), so a NOP needs no operand word, and the opcode is judged before any operand word is
looked for (40_dispatch.md R69). -/
def decode : List Int → Except DecodeError Instr
  | [] => .error .noOpcode
  | op :: rest =>
    match Opcode.ofWord? op with
    | none => .error (.illegalOpcode op)
    | some o =>
      match o.arity, rest with
      | 0, _ => .ok (o.build 0 0)
      | _ + 1, [] => .error (.missingOperand 1)
      | _ + 1, [_] => .error (.missingOperand 2)
      | _ + 1, w1 :: w2 :: _ => .ok (o.build w1 w2)

/-- The operand words of an instruction, in memory order (30_encoding.md R50). -/
def Instr.operands : Instr → List Int
  | .nop => []
  | .movRImm w1 w2 => [w1, w2]
  | .movRR w1 w2 => [w1, w2]
  | .movRMem w1 w2 => [w1, w2]
  | .movRInd w1 w2 => [w1, w2]
  | .movMemR w1 w2 => [w1, w2]
  | .movIndR w1 w2 => [w1, w2]

/-- The words of an instruction: format Z or format P (30_encoding.md R50). -/
def encode (i : Instr) : List Int :=
  i.opcode.value :: i.operands

/-- The length of an instruction in words: `1 + arity` (40_dispatch.md R66). -/
def Instr.length (i : Instr) : Nat :=
  1 + i.opcode.arity

/-- The signed value of the low W bits of `n` (00_scope.md R9, R10). -/
def wordOfBits (W n : Nat) : Int :=
  (BitVec.ofNat W n).toInt

/-- The W bits of a word, as a number. -/
def bitsOfWord (W : Nat) (v : Int) : Nat :=
  (BitVec.ofInt W v).toNat

/-- `k` words of W bits from a number, the lowest bits the first word. -/
def wordsOfBits (W : Nat) : Nat → Nat → List Int
  | 0, _ => []
  | k + 1, n => wordOfBits W n :: wordsOfBits W k (n / 2 ^ W)

/-- Words of W bits packed into a number, the first word in the lowest bits. -/
def bitsOfWords (W : Nat) : List Int → Nat
  | [] => 0
  | v :: vs => bitsOfWord W v + 2 ^ W * bitsOfWords W vs

/-- The instruction in the low `nbits` bits of `w` on an instance with W-bit words; every bit above is 0. -/
def decodeBits (W nbits w : Nat) : Option Instr :=
  (decode (wordsOfBits W 3 (w % 2 ^ nbits))).toOption

/-- The bits of an instruction on an instance with W-bit words. -/
def encodeBits (W : Nat) (i : Instr) : Nat :=
  bitsOfWords W (encode i)

/-- The instruction this decoder reads from an instruction of spec/opcode_table.json, at the W of the
documented instance (the table's masks are given at W = 32; notes/assumptions/12.md). -/
def decodeTableWord (nbits w : Nat) : Option Instr :=
  decodeBits Params.documented.wordBits nbits w

end Sys2Proof
end

