-- ==== Sys2Proof/Machine/State.lean ====
section
/-!
DEFINITION. The state of one Processor (10_state.md R16), the faults it raises, and reset.
-/

namespace Sys2Proof.Machine

/-- The four general registers, by the names of 10_state.md R19. -/
inductive Reg where
  | r0
  | r1
  | r2
  | r3
  deriving DecidableEq, Repr

/-- The register file: exactly four words (10_state.md R17, R18). -/
structure RegFile where
  x0 : Int
  x1 : Int
  x2 : Int
  x3 : Int
  deriving DecidableEq, Repr

/-- What a cell the memory does not list reads as: its reset contents (10_state.md R31). -/
def unlistedCell : Int := 0

/-- Memory: (cell index, word) pairs. Cells are words, not bytes (20_memory.md R34, R37; notes/assumptions/4.md). -/
abbrev Memory := List (Nat × Int)

/-- The one canonical form: cell indices strictly rise, and no entry equals what an unlisted cell reads as. -/
def Memory.wf : Memory → Bool
  | [] => true
  | (a, v) :: m => decide (v ≠ unlistedCell) && m.all (fun c => decide (a < c.1)) && Memory.wf m

/-- The phase of the host interface (10_state.md R29). -/
inductive Phase where
  /-- After reset, before the first Step: the host may write memory. -/
  | loading
  /-- After the first Step. -/
  | running
  /-- After a fault, until Reset (60_exceptions.md R91). -/
  | faulted
  deriving DecidableEq, Repr

/-- The fault record, the one status register of the block (60_exceptions.md R89). Only the host sees it. -/
structure FaultRecord where
  /-- VALID: a fault is latched. -/
  valid : Bool
  /-- KIND: the kind code of R86, R87 or R88; 0 is none. -/
  kind : BitVec 2
  /-- DETAIL: the detail code of R87 or R88. -/
  detail : BitVec 2
  /-- WORD: which word of the instruction the fault concerns. -/
  word : BitVec 2
  /-- VALUE: the offending value. -/
  value : Int
  /-- FAULT_IP: `ip` of the faulting Step. -/
  faultIp : Nat
  deriving DecidableEq, Repr

/-- The cleared record: VALID = 0 and every other field 0 (10_state.md R31). -/
def FaultRecord.clear : FaultRecord where
  valid := false
  kind := 0
  detail := 0
  word := 0
  value := 0
  faultIp := 0

/-- The faults of the hardware: the kinds of 60_exceptions.md R85 with their details. Taking one is a NEXT state
with the record latched (`State.takeFault`; R90), so no meaning answers `Host.Outcome.fault`: that is safe, since the
spec gives the whole effect of a fault (notes/assumptions/5.md). -/
inductive Fault where
  /-- DECODE_FAILURE (R86): raised by decode. Safe. -/
  | decodeFailure
  /-- ADDRESS_OUT_OF_RANGE / REG_INDEX (R87): raised by the operand checks of opcodes 1 to 6. Safe. -/
  | regIndex
  /-- ADDRESS_OUT_OF_RANGE / MEM_DIRECT (R87): raised by the operand checks of opcodes 3 and 5. Safe. -/
  | memDirect
  /-- ADDRESS_OUT_OF_RANGE / MEM_INDIRECT (R87): raised by the operand checks of opcodes 4 and 6. Safe. -/
  | memIndirect
  /-- IP_OUT_OF_RANGE / OPCODE_FETCH (R88): raised by every Step whose `ip` is no cell index. Safe. -/
  | opcodeFetch
  /-- IP_OUT_OF_RANGE / OPERAND_FETCH (R88): raised by an instruction that runs past the last cell. Safe. -/
  | operandFetch
  deriving DecidableEq, Repr

/-- What `exec` answers for an instruction it has no meaning for. -/
inductive Refusal where
  /-- Raised only by an arm of `exec` whose instruction has no meaning; no arm of this model is such. Safe. -/
  | notModelled (mnemonic : String)
  deriving DecidableEq, Repr

/-- The state of one Processor (10_state.md R16), with the phase (R29), the fault record (60_exceptions.md R89) and the
parameters of the instance, which nothing changes (00_scope.md R7; notes/assumptions/1.md). -/
structure State where
  /-- The instance's parameters; the model's own field. -/
  params : Params
  /-- Memory, code and data together (10_state.md R26). -/
  mem : Memory
  /-- The register file (10_state.md R18). -/
  x : RegFile
  /-- The instruction pointer: the cell index of the next opcode word (10_state.md R22). -/
  ip : Nat
  /-- The phase of the host interface (10_state.md R29). -/
  phase : Phase
  /-- The fault record (60_exceptions.md R89). -/
  fault : FaultRecord
  deriving DecidableEq, Repr

/-- Construction of an instance with the given parameters: the table of 10_state.md R31. -/
def State.resetWith (p : Params) : State where
  params := p
  mem := []
  x := { x0 := 0, x1 := 0, x2 := 0, x3 := 0 }
  ip := 0
  phase := .loading
  fault := FaultRecord.clear

/-- The documented instance right after reset (10_state.md R31; 70_reset_and_hazards.md R102). -/
def State.reset : State :=
  State.resetWith Params.documented

end Sys2Proof.Machine
end

