-- ==== Sys2Proof/Machine/Ops.lean ====
section
/-!
DEFINITION. The named operations over memory, registers, phase and fault record: the primitives of
00_scope.md R12, the commit of 40_dispatch.md R70 and R72, and taking a fault (60_exceptions.md R90).
-/

namespace Sys2Proof.Machine

/-- `MemRead(a, 1)`: the word in cell `a` (00_scope.md R12). -/
def Memory.read : Memory → Nat → Int
  | [], _ => unlistedCell
  | (b, v) :: m, a => if a = b then v else Memory.read m a

/-- `MemWrite(a, 1, v)`: cell `a` then holds `v` (00_scope.md R12). It keeps the canonical form: writing what an
unlisted cell reads as removes the entry. -/
def Memory.write : Memory → Nat → Int → Memory
  | [], a, v => if v = unlistedCell then [] else [(a, v)]
  | (b, u) :: m, a, v =>
    if a < b then
      if v = unlistedCell then (b, u) :: m else (a, v) :: (b, u) :: m
    else if a = b then
      if v = unlistedCell then m else (a, v) :: m
    else (b, u) :: Memory.write m a v

/-- `x[i]`: read a register (00_scope.md R12). -/
def RegFile.get (x : RegFile) : Reg → Int
  | .r0 => x.x0
  | .r1 => x.x1
  | .r2 => x.x2
  | .r3 => x.x3

/-- `x[i] <- v`: write a register; no register is hardwired (00_scope.md R12; 10_state.md R18). -/
def RegFile.set (x : RegFile) (r : Reg) (v : Int) : RegFile :=
  match r with
  | .r0 => { x with x0 := v }
  | .r1 => { x with x1 := v }
  | .r2 => { x with x2 := v }
  | .r3 => { x with x3 := v }

/-- The word in cell `a` of a state. -/
def State.cell (s : State) (a : Nat) : Int :=
  s.mem.read a

/-- `x[r] <- v`. -/
def State.writeReg (s : State) (r : Reg) (v : Int) : State :=
  { s with x := s.x.set r v }

/-- `MemWrite(a, 1, v)`. -/
def State.writeCell (s : State) (a : Nat) (v : Int) : State :=
  { s with mem := s.mem.write a v }

/-- `ip <- p`. -/
def State.setIp (s : State) (p : Nat) : State :=
  { s with ip := p }

/-- The phase gate of a Step that is not refused: LOADING becomes RUNNING (10_state.md R29; 40_dispatch.md R63). -/
def State.beginStep (s : State) : State :=
  { s with phase := .running }

/-- The at most one write a Step stages (40_dispatch.md R70, R73). -/
inductive Staged where
  | nothing
  | reg (r : Reg) (v : Int)
  | cell (a : Nat) (v : Int)
  deriving DecidableEq, Repr

/-- What a failing check raises: `Fault(kind, detail, word, value)` of 00_scope.md R12. -/
structure Report where
  cause : Fault
  word : BitVec 2
  value : Int
  deriving DecidableEq, Repr

/-- Apply the staged write. -/
def State.applyStaged (s : State) : Staged → State
  | .nothing => s
  | .reg r v => s.writeReg r v
  | .cell a v => s.writeCell a v

/-- Commit: the staged write takes effect and `ip_after = ip_before + 1 + arity`, both at once
(40_dispatch.md R70, R72). -/
def State.commit (s : State) (arity : Nat) (w : Staged) : State :=
  (s.applyStaged w).setIp (s.ip + 1 + arity)

/-- The KIND code of a fault (60_exceptions.md R86, R87, R88). -/
def Fault.kind : Fault → BitVec 2
  | .decodeFailure => 1
  | .regIndex => 2
  | .memDirect => 2
  | .memIndirect => 2
  | .opcodeFetch => 3
  | .operandFetch => 3

/-- The DETAIL code of a fault (60_exceptions.md R86, R87, R88). -/
def Fault.detail : Fault → BitVec 2
  | .decodeFailure => 0
  | .regIndex => 0
  | .memDirect => 1
  | .memIndirect => 2
  | .opcodeFetch => 0
  | .operandFetch => 1

/-- The record a fault latches at instruction pointer `ip` (60_exceptions.md R89). -/
def Report.record (r : Report) (ip : Nat) : FaultRecord where
  valid := true
  kind := r.cause.kind
  detail := r.cause.detail
  word := r.word
  value := r.value
  faultIp := ip

/-- Taking a fault: `mem`, `x` and `ip` stay as they were when the Step began, the record is latched and the phase
becomes FAULTED (60_exceptions.md R90; 40_dispatch.md R71). The hardware has no return from it (R92). -/
def State.takeFault (s : State) (r : Report) : State :=
  { s with phase := .faulted, fault := r.record s.ip }

/-- The end of an instruction: commit what was staged, or take the fault of the first check that failed
(40_dispatch.md R70, R71). -/
def State.conclude (s : State) (arity : Nat) : Except Report Staged → Host.Outcome State Fault Refusal
  | .ok w => .next (s.commit arity w)
  | .error r => .next (s.takeFault r)

/-- The `Reset` request on a live instance: it equals construction of the same instance, in every phase
(70_reset_and_hazards.md R102; D9). -/
def State.resetAgain (s : State) : State :=
  State.resetWith s.params

/-- The status part of the record as one host-readable word of W bits: VALID in bit 0, DETAIL in bits 2:1, KIND in
bits 4:3, WORD in bits 6:5, and 0 above (60_exceptions.md R89). -/
def FaultRecord.statusWord (r : FaultRecord) (W : Nat) : BitVec W :=
  (r.word ++ r.kind ++ r.detail ++ BitVec.ofBool r.valid).setWidth W

/-- The cause code `KIND ++ DETAIL` (60_exceptions.md R89). -/
def FaultRecord.causeCode (r : FaultRecord) : BitVec 4 :=
  r.kind ++ r.detail

/-- VALUE as a host-readable word (60_exceptions.md R89). -/
def FaultRecord.valueWord (r : FaultRecord) (W : Nat) : BitVec W :=
  BitVec.ofInt W r.value

/-- FAULT_IP as a host-readable word, zero-extended (60_exceptions.md R89). -/
def FaultRecord.faultIpWord (r : FaultRecord) (W : Nat) : BitVec W :=
  BitVec.ofNat W r.faultIp

end Sys2Proof.Machine
end

