-- ==== Sys2Proof/Machine/Operands.lean ====
section
/-!
DEFINITION. The operand kinds of 30_encoding.md R53 to R55, each with its range check and the fault the check raises
(60_exceptions.md R87). A check names the operand word `k` (1 or 2) it concerns.
-/

namespace Sys2Proof.Machine

/-- The index that names a register (10_state.md R18). -/
def Reg.index : Reg → Int
  | .r0 => 0
  | .r1 => 1
  | .r2 => 2
  | .r3 => 3

/-- The register an index names by its signed value, if `0 <= w <= 3` (`validReg`, 30_encoding.md R53). -/
def Reg.ofWord? (w : Int) : Option Reg :=
  [Reg.r0, Reg.r1, Reg.r2, Reg.r3].find? fun r => decide (r.index = w)

/-- `validAddr(a)`: `0 <= a <= MEM_SIZE-1` on the signed value (00_scope.md R12; 20_memory.md R35). -/
def State.validAddr (s : State) (a : Int) : Bool :=
  decide (0 ≤ a) && decide (a < (s.params.memSize : Int))

/-- A register-index operand, or ADDRESS_OUT_OF_RANGE / REG_INDEX with the index (30_encoding.md R53). -/
def checkReg (k : BitVec 2) (w : Int) : Except Report Reg :=
  match Reg.ofWord? w with
  | some r => .ok r
  | none => .error { cause := .regIndex, word := k, value := w }

/-- A direct-address operand, or ADDRESS_OUT_OF_RANGE / MEM_DIRECT with the address (30_encoding.md R55). -/
def State.checkDirect (s : State) (k : BitVec 2) (w : Int) : Except Report Nat :=
  if s.validAddr w then .ok w.toNat else .error { cause := .memDirect, word := k, value := w }

/-- The address an address-holding register gives, or ADDRESS_OUT_OF_RANGE / MEM_INDIRECT with the register's value
(30_encoding.md R55). -/
def State.checkIndirect (s : State) (k : BitVec 2) (r : Reg) : Except Report Nat :=
  if s.validAddr (s.x.get r) then .ok (s.x.get r).toNat
  else .error { cause := .memIndirect, word := k, value := s.x.get r }

end Sys2Proof.Machine
end

