-- ==== Sys2Proof/Machine/Fetch.lean ====
section
/-!
DEFINITION. Opcode fetch and operand fetch (40_dispatch.md R64, R67): the words at `ip`, `ip+1` and `ip+2`, as far
as those are cell indices, and the fault each failure of fetch or decode raises.
-/

namespace Sys2Proof.Machine

/-- The words of up to `n` consecutive cells from `a`, stopping at the first index that is no cell. -/
def State.readAhead (s : State) : Nat → Nat → List Int
  | 0, _ => []
  | n + 1, a => if s.validAddr a then s.cell a :: s.readAhead n (a + 1) else []

/-- The words of the instruction stream from `ip`: an instruction is at most 3 words (30_encoding.md R49). -/
def State.fetchWindow (s : State) : List Int :=
  s.readAhead 3 s.ip

/-- The fault a failed fetch or decode raises (40_dispatch.md R64, R65, R67; 60_exceptions.md R86, R88). -/
def reportOfDecode : DecodeError → Report
  | .noOpcode => { cause := .opcodeFetch, word := 0, value := 0 }
  | .illegalOpcode v => { cause := .decodeFailure, word := 0, value := v }
  | .missingOperand k => { cause := .operandFetch, word := BitVec.ofNat 2 k, value := 0 }

/-- Store words in consecutive cells from `a`, leaving out indices that are no cell. -/
def State.storeWords (s : State) : List Int → Nat → State
  | [], _ => s
  | v :: vs, a => (if s.validAddr a then s.writeCell a v else s).storeWords vs (a + 1)

end Sys2Proof.Machine
end

