-- ==== Sys2Proof/Machine/Load.lean ====
section
/-!
DEFINITION. Loads, opcodes 3 and 4 (43_mov_load.md). The checks stand in the order of 40_dispatch.md R69; `s` is the
state at the start of the Step (20_memory.md R43).
-/

namespace Sys2Proof.Machine

/-- What `Execute(3, w1, w2)` stages (R81). -/
def stageMovRMem (w1 w2 : Int) (s : State) : Except Report Staged := do
  let target ← checkReg 1 w1
  let ea ← s.checkDirect 2 w2
  return .reg target (s.cell ea)

/-- MOV reg, [addr]: `x[w1] <- MemRead(w2, 1)` (R81). -/
def execMovRMem (w1 w2 : Int) (s : State) : Host.Outcome State Fault Refusal :=
  s.conclude Opcode.movRMem.arity (stageMovRMem w1 w2 s)

/-- What `Execute(4, w1, w2)` stages (R82). -/
def stageMovRInd (w1 w2 : Int) (s : State) : Except Report Staged := do
  let target ← checkReg 1 w1
  let addrReg ← checkReg 2 w2
  let ea ← s.checkIndirect 2 addrReg
  return .reg target (s.cell ea)

/-- MOV reg, [reg]: `x[w1] <- MemRead(x[w2], 1)` (R82). -/
def execMovRInd (w1 w2 : Int) (s : State) : Host.Outcome State Fault Refusal :=
  s.conclude Opcode.movRInd.arity (stageMovRInd w1 w2 s)

end Sys2Proof.Machine
end

