-- ==== Sys2Proof/Machine/Nop.lean ====
section
/-!
DEFINITION. NOP (41_nop.md).
-/

namespace Sys2Proof.Machine

/-- NOP: no check, no staged write; `ip` advances by 1 (R78). -/
def execNop (s : State) : Host.Outcome State Fault Refusal :=
  s.conclude Opcode.nop.arity (.ok .nothing)

end Sys2Proof.Machine
end

