-- ==== Sys2Proof/Machine/RegisterMove.lean ====
section
/-!
DEFINITION. Register moves, opcodes 1 and 2 (42_mov_register.md). The checks stand in the order of
40_dispatch.md R69; `s` is the state at the start of the Step (20_memory.md R43).
-/

namespace Sys2Proof.Machine

/-- What `Execute(1, w1, w2)` stages (R79). -/
def stageMovRImm (w1 w2 : Int) : Except Report Staged := do
  let target ← checkReg 1 w1
  return .reg target w2

/-- MOV reg, imm: `x[w1] <- w2` (R79). -/
def execMovRImm (w1 w2 : Int) (s : State) : Host.Outcome State Fault Refusal :=
  s.conclude Opcode.movRImm.arity (stageMovRImm w1 w2)

/-- What `Execute(2, w1, w2)` stages (R80). -/
def stageMovRR (w1 w2 : Int) (s : State) : Except Report Staged := do
  let target ← checkReg 1 w1
  let source ← checkReg 2 w2
  return .reg target (s.x.get source)

/-- MOV reg, reg: `x[w1] <- x[w2]` (R80). -/
def execMovRR (w1 w2 : Int) (s : State) : Host.Outcome State Fault Refusal :=
  s.conclude Opcode.movRR.arity (stageMovRR w1 w2 s)

end Sys2Proof.Machine
end

