-- ==== Sys2Proof/Machine/Store.lean ====
section
/-!
DEFINITION. Stores, opcodes 5 and 6 (44_mov_store.md). The checks stand in the order of 40_dispatch.md R69; `s` is
the state at the start of the Step (20_memory.md R43).
-/

namespace Sys2Proof.Machine

/-- What `Execute(5, w1, w2)` stages (R83). -/
def stageMovMemR (w1 w2 : Int) (s : State) : Except Report Staged := do
  let ea ← s.checkDirect 1 w1
  let source ← checkReg 2 w2
  return .cell ea (s.x.get source)

/-- MOV [addr], reg: `MemWrite(w1, 1, x[w2])` (R83). -/
def execMovMemR (w1 w2 : Int) (s : State) : Host.Outcome State Fault Refusal :=
  s.conclude Opcode.movMemR.arity (stageMovMemR w1 w2 s)

/-- What `Execute(6, w1, w2)` stages (R84). -/
def stageMovIndR (w1 w2 : Int) (s : State) : Except Report Staged := do
  let addrReg ← checkReg 1 w1
  let ea ← s.checkIndirect 1 addrReg
  let source ← checkReg 2 w2
  return .cell ea (s.x.get source)

/-- MOV [reg], reg: `MemWrite(x[w1], 1, x[w2])` (R84). -/
def execMovIndR (w1 w2 : Int) (s : State) : Host.Outcome State Fault Refusal :=
  s.conclude Opcode.movIndR.arity (stageMovIndR w1 w2 s)

end Sys2Proof.Machine
end

