-- ==== Sys2Proof/Machine/Dispatch.lean ====
section
/-!
DEFINITION. The dispatch table: one arm per instruction (40_dispatch.md R65).
-/

namespace Sys2Proof.Machine

/-- The Execute arm of an instruction with the commit or the fault that ends it (40_dispatch.md R62). The phase gate
and the fetch are `step`'s (notes/assumptions/14.md). -/
def exec (i : Instr) (s : State) : Host.Outcome State Fault Refusal :=
  match i with
  | .nop => Sys2Proof.Machine.execNop s
  | .movRImm target value => Sys2Proof.Machine.execMovRImm target value s
  | .movRR target source => Sys2Proof.Machine.execMovRR target source s
  | .movRMem target address => Sys2Proof.Machine.execMovRMem target address s
  | .movRInd target addrReg => Sys2Proof.Machine.execMovRInd target addrReg s
  | .movMemR address source => Sys2Proof.Machine.execMovMemR address source s
  | .movIndR addrReg source => Sys2Proof.Machine.execMovIndR addrReg source s

end Sys2Proof.Machine
end

