-- ==== Sys2Proof/Machine/Step.lean ====
section
/-!
DEFINITION. The one operation of the CORE, `Step` (40_dispatch.md R62).
-/

namespace Sys2Proof.Machine

/-- One `Step` request. FAULTED: nothing changes (R63). Otherwise LOADING becomes RUNNING, the instruction at `ip` is
fetched and decoded, and it executes; a failed fetch or decode takes its fault (R64, R65, R67). The reply is read off
the state it leaves (`State.stepReply`). -/
def step (s : State) : Host.Outcome State Fault Refusal :=
  if s.phase = .faulted then .next s
  else
    match decode s.beginStep.fetchWindow with
    | .ok i => exec i s.beginStep
    | .error e => .next (s.beginStep.takeFault (reportOfDecode e))

/-- `s` with the instruction in the low `nbits` bits of `w` in the cells from `ip`, all three words an instruction can
have. It stands for the host's writes before the first Step (70_reset_and_hazards.md R103; notes/assumptions/11.md). -/
def State.withFetchWord (s : State) (nbits w : Nat) : State :=
  s.storeWords (wordsOfBits s.params.wordBits 3 (w % 2 ^ nbits)) s.ip

end Sys2Proof.Machine
end

