-- ==== Sys2Proof/Machine/Assembly.lean ====
section
/-!
DEFINITION. The assembly syntax of 30_encoding.md R60, the spec's own (D12). No rule of the machine depends on it;
there are no pseudo-instructions (R61).
-/

namespace Sys2Proof.Machine

/-- One line of assembly: the rows of the table of 30_encoding.md R60. -/
inductive AsmLine where
  | nop
  | movRImm (target : Reg) (imm : Int)
  | movRR (target source : Reg)
  | movRMem (target : Reg) (addr : Int)
  | movRInd (target addrReg : Reg)
  | movMemR (addr : Int) (source : Reg)
  | movIndR (addrReg source : Reg)
  /-- `.word v`: one raw word, a directive. -/
  | word (v : Int)
  deriving DecidableEq, Repr

/-- The words a line encodes as (30_encoding.md R60). -/
def AsmLine.words : AsmLine → List Int
  | .nop => [0]
  | .movRImm t imm => [1, t.index, imm]
  | .movRR t s => [2, t.index, s.index]
  | .movRMem t addr => [3, t.index, addr]
  | .movRInd t a => [4, t.index, a.index]
  | .movMemR addr s => [5, addr, s.index]
  | .movIndR a s => [6, a.index, s.index]
  | .word v => [v]

/-- The words of a line on an instance with W-bit words, or nothing where a number does not fit in W bits (R60). -/
def AsmLine.assemble (W : Nat) (l : AsmLine) : Option (List Int) :=
  if l.words.all (Word.fits W) then some l.words else none

/-- The tokens of a line. -/
inductive AsmToken where
  | name (cs : List Char)
  | num (v : Int)
  | comma
  | open_
  | close
  deriving DecidableEq, Repr

/-- The value of a run of decimal digits, read after `acc`. -/
def decimalValue : List Char → Nat → Option Nat
  | [], acc => some acc
  | c :: cs, acc => if '0' ≤ c ∧ c ≤ '9' then decimalValue cs (10 * acc + (c.toNat - '0'.toNat)) else none

/-- The token a run of characters with no separator in it spells: a signed decimal integer, or a name. DESIGN CHOICE, where
R60 says only "signed decimal integers": `-` is the only sign, so `+3` is a name and its line is refused, and digits may
have leading zeros (notes/assumptions/15.md; safe for the machine). -/
def tokenOfRun : List Char → List AsmToken
  | [] => []
  | ['-'] => [.name ['-']]
  | '-' :: cs =>
    match decimalValue cs 0 with
    | some n => [.num (-(n : Int))]
    | none => [.name ('-' :: cs)]
  | c :: cs =>
    match decimalValue (c :: cs) 0 with
    | some n => [.num n]
    | none => [.name (c :: cs)]

/-- Split a line into tokens; `run` is the run read so far. A `;` starts a comment (R60). -/
def tokens : List Char → List Char → List AsmToken
  | [], run => tokenOfRun run
  | c :: cs, run =>
    if c = ';' then tokenOfRun run
    else if c = ' ' ∨ c = '\t' then tokenOfRun run ++ tokens cs []
    else if c = ',' then tokenOfRun run ++ .comma :: tokens cs []
    else if c = '[' then tokenOfRun run ++ .open_ :: tokens cs []
    else if c = ']' then tokenOfRun run ++ .close :: tokens cs []
    else tokens cs (run ++ [c])

/-- The register a name spells: `r0` to `r3` and no other (R60; 10_state.md R19). -/
def regOfName : List Char → Option Reg
  | ['r', '0'] => some .r0
  | ['r', '1'] => some .r1
  | ['r', '2'] => some .r2
  | ['r', '3'] => some .r3
  | _ => none

/-- The line a list of tokens spells (R60): a number in brackets is direct, a register name is indirect. DESIGN CHOICE:
names are read with the capitals R60 writes them with (notes/assumptions/15.md; safe for the machine). -/
def lineOfTokens : List AsmToken → Option AsmLine
  | [.name ['N', 'O', 'P']] => some .nop
  | [.name ['.', 'w', 'o', 'r', 'd'], .num v] => some (.word v)
  | .name ['M', 'O', 'V'] :: operands =>
    match operands with
    | [.name t, .comma, .num v] => (regOfName t).map (AsmLine.movRImm · v)
    | [.name t, .comma, .name r] => do return .movRR (← regOfName t) (← regOfName r)
    | [.name t, .comma, .open_, .num a, .close] => (regOfName t).map (AsmLine.movRMem · a)
    | [.name t, .comma, .open_, .name r, .close] => do return .movRInd (← regOfName t) (← regOfName r)
    | [.open_, .num a, .close, .comma, .name r] => (regOfName r).map (AsmLine.movMemR a)
    | [.open_, .name t, .close, .comma, .name r] => do return .movIndR (← regOfName t) (← regOfName r)
    | _ => none
  | _ => none

/-- The words of a line of text on an instance with W-bit words, or nothing where it is no line of R60. -/
def assembleText (W : Nat) (line : List Char) : Option (List Int) :=
  (lineOfTokens (tokens line [])).bind (AsmLine.assemble W)

end Sys2Proof.Machine
end

