-- ==== Sys2Proof/Machine/Requests.lean ====
section
/-!
DEFINITION. The host interface: the four requests of 10_state.md R32 and the reply to each, and a session of requests in
the order the host makes them (40_dispatch.md R75; 70_reset_and_hazards.md R103).
-/

namespace Sys2Proof.Machine

/-- A host request (10_state.md R32). -/
inductive Request where
  | reset
  | hostWrite (a v : Int)
  | step
  | observe
  deriving DecidableEq, Repr

/-- What `Observe` returns: `mem`, `x`, `ip`, the phase and the fault record (10_state.md R32). -/
structure View where
  mem : Memory
  x : RegFile
  ip : Nat
  phase : Phase
  fault : FaultRecord
  deriving DecidableEq, Repr

/-- The reply to a request. -/
inductive Reply where
  /-- Reset was applied, or a HostWrite was accepted. -/
  | accepted
  /-- A HostWrite was refused: it has no effect (10_state.md R32; D10, D21). -/
  | refused
  /-- A Step committed (40_dispatch.md R62). -/
  | ok
  /-- A Step returned FAULT with the latched record (40_dispatch.md R62, R63). -/
  | fault (r : FaultRecord)
  /-- The reply to Observe. -/
  | observed (v : View)
  deriving DecidableEq, Repr

/-- The state as the host sees it (10_state.md R32). -/
def State.view (s : State) : View where
  mem := s.mem
  x := s.x
  ip := s.ip
  phase := s.phase
  fault := s.fault

/-- What a Step that leaves `s` returns: OK, or FAULT with the record (40_dispatch.md R62; 60_exceptions.md R90). -/
def State.stepReply (s : State) : Reply :=
  if s.phase = .faulted then .fault s.fault else .ok

/-- A HostWrite is accepted only in LOADING, only for a cell index, and only for a word of the instance
(10_state.md R32). That a value which is no W-bit word is refused is DEDUCED (notes/assumptions/9.md; safe). -/
def State.acceptsWrite (s : State) (a v : Int) : Bool :=
  decide (s.phase = .loading) && s.validAddr a && Word.fits s.params.wordBits v

/-- Serve one request: the next state and the reply. -/
def serve (r : Request) (s : State) : Host.Outcome (State × Reply) Fault Refusal :=
  match r with
  | .reset => .next (s.resetAgain, .accepted)
  | .hostWrite a v =>
    if s.acceptsWrite a v then .next (s.writeCell a.toNat v, .accepted) else .next (s, .refused)
  | .step =>
    match step s with
    | .next t => .next (t, t.stepReply)
    | .fault f => .fault f
    | .refused f => .refused f
  | .observe => .next (s, .observed s.view)

/-- Serve requests in order, with their replies (40_dispatch.md R75). -/
def session : List Request → State → Host.Outcome (State × List Reply) Fault Refusal
  | [], s => .next (s, [])
  | r :: rs, s =>
    match serve r s with
    | .next (t, a) =>
      match session rs t with
      | .next (u, as) => .next (u, a :: as)
      | .fault f => .fault f
      | .refused f => .refused f
    | .fault f => .fault f
    | .refused f => .refused f

/-- `Run(s, k)`: up to `k` Steps, stopping early at the first that returns FAULT (40_dispatch.md R76). -/
def runSteps : Nat → State → Host.Outcome State Fault Refusal
  | 0, s => .next s
  | k + 1, s =>
    match step s with
    | .next t => if t.phase = .faulted then .next t else runSteps k t
    | .fault f => .fault f
    | .refused f => .refused f

/-- The boot sequence of 70_reset_and_hazards.md R103: Reset, the image from cell 0, then `k` Steps. -/
def bootRequests (image : List Int) (k : Nat) : List Request :=
  .reset :: (image.zipIdx.map fun c => Request.hostWrite c.2 c.1) ++ List.replicate k .step

end Sys2Proof.Machine
end

