-- ==== Sys2Proof/WellFormed.lean ====
section
/-!
DEFINITION. Which instructions an instance with W-bit words can hold: those whose every word is a W-bit word
(00_scope.md R9; 30_encoding.md R50). A register index or an address out of range is well formed: it faults when
it executes (30_encoding.md R58).
-/

namespace Sys2Proof

/-- Every word of the instruction's encoding is a W-bit word. -/
def Instr.wf (W : Nat) (i : Instr) : Bool :=
  (encode i).all (Word.fits W)

end Sys2Proof
end

