-- ==== Sys2Proof/Safety.lean ====
section
/-!
DEFINITION. The terms the claims are stated in: the legal states of an instance, and what an instruction changes and
leaves unchanged.
-/

namespace Sys2Proof.Machine

/-- The legal values of the fault record's fields (the table of 60_exceptions.md R89): a clear record is all 0, and a
valid one holds one of the kinds and details of R86 to R88. -/
def FaultRecord.legal (r : FaultRecord) (p : Params) : Bool :=
  if r.valid then
    (decide (r.kind = 1) && decide (r.detail = 0) ||
      decide (r.kind = 2) && decide (r.detail ≠ 3) ||
      decide (r.kind = 3) && (decide (r.detail = 0) || decide (r.detail = 1))) &&
    decide (r.word ≠ 3) && Word.fits p.wordBits r.value && decide (r.faultIp ≤ p.memSize)
  else decide (r = FaultRecord.clear)

/-- The legal states of an instance. Every reachable state is one; a state of the domain of `Step`
(40_dispatch.md R77) need not be. -/
structure State.Inv (s : State) : Prop where
  /-- The parameters satisfy 00_scope.md R7. -/
  paramsLegal : s.params.wf = true
  /-- The memory is in canonical form. -/
  memCanonical : s.mem.wf = true
  /-- Every listed cell is a cell of the instance and holds a W-bit word (10_state.md R26). -/
  memInside : ∀ c ∈ s.mem, c.1 < s.params.memSize ∧ Word.fits s.params.wordBits c.2 = true
  /-- Every register holds a W-bit word (10_state.md R18). -/
  regsFit : ∀ r, Word.fits s.params.wordBits (s.x.get r) = true
  /-- `0 <= ip <= MEM_SIZE` (10_state.md R24). -/
  ipInside : s.ip ≤ s.params.memSize
  /-- VALID equals (phase = FAULTED) (60_exceptions.md R89). -/
  validIffFaulted : s.fault.valid = true ↔ s.phase = .faulted
  /-- Every field of the record has a legal value (60_exceptions.md R89). -/
  recordLegal : s.fault.legal s.params = true
  /-- FAULT_IP is also the `ip` left in place (60_exceptions.md R89). -/
  faultIpIsIp : s.phase = .faulted → s.fault.faultIp = s.ip

/-- From `s` to `t` only `ip` changed, to `p`. -/
structure WroteNothing (s t : State) (p : Nat) : Prop where
  registers : ∀ q, t.x.get q = s.x.get q
  memory : ∀ a, t.cell a = s.cell a
  ip : t.ip = p
  phase : t.phase = s.phase
  record : t.fault = s.fault
  params : t.params = s.params

/-- From `s` to `t` only register `r`, to `v`, and `ip`, to `p`, changed. -/
structure WroteRegister (s t : State) (r : Reg) (v : Int) (p : Nat) : Prop where
  target : t.x.get r = v
  others : ∀ q, q ≠ r → t.x.get q = s.x.get q
  memory : ∀ a, t.cell a = s.cell a
  ip : t.ip = p
  phase : t.phase = s.phase
  record : t.fault = s.fault
  params : t.params = s.params

/-- From `s` to `t` only cell `a`, to `v`, and `ip`, to `p`, changed. -/
structure WroteCell (s t : State) (a : Nat) (v : Int) (p : Nat) : Prop where
  stored : t.cell a = v
  others : ∀ b, b ≠ a → t.cell b = s.cell b
  registers : ∀ q, t.x.get q = s.x.get q
  ip : t.ip = p
  phase : t.phase = s.phase
  record : t.fault = s.fault
  params : t.params = s.params

/-- From `s` to `t` no architectural state changed, and the fault `f` about word `k` with value `v` was latched
(40_dispatch.md R71; 60_exceptions.md R90). -/
structure TookFault (s t : State) (f : Fault) (k : BitVec 2) (v : Int) : Prop where
  registers : ∀ q, t.x.get q = s.x.get q
  memory : ∀ a, t.cell a = s.cell a
  ip : t.ip = s.ip
  params : t.params = s.params
  phase : t.phase = .faulted
  record : t.fault =
    { valid := true, kind := f.kind, detail := f.detail, word := k, value := v, faultIp := s.ip }

/-- `w` is no register index (30_encoding.md R53). -/
def BadIndex (w : Int) : Prop :=
  w < 0 ∨ 3 < w

/-- `a` is no cell index of the instance (20_memory.md R35). -/
def BadAddress (s : State) (a : Int) : Prop :=
  a < 0 ∨ (s.params.memSize : Int) ≤ a

/-- The register an instruction names as its target: the one its first operand word indexes, for opcodes 1 to 4
(10_state.md R20). -/
def targetRegister : Instr → Option Reg
  | .nop => none
  | .movRImm w1 _ => Reg.ofWord? w1
  | .movRR w1 _ => Reg.ofWord? w1
  | .movRMem w1 _ => Reg.ofWord? w1
  | .movRInd w1 _ => Reg.ofWord? w1
  | .movMemR _ _ => none
  | .movIndR _ _ => none

/-- The cell a store names, by the checks its meaning applies to its first operand word: the address itself for opcode 5,
the value of the address-holding register for opcode 6 (44_mov_store.md R83, R84). -/
def storeAddress (s : State) : Instr → Option Nat
  | .nop => none
  | .movRImm _ _ => none
  | .movRR _ _ => none
  | .movRMem _ _ => none
  | .movRInd _ _ => none
  | .movMemR w1 _ => (s.checkDirect 1 w1).toOption
  | .movIndR w1 _ => (checkReg 1 w1 >>= s.checkIndirect 1).toOption

/-- At width W the line assembles to the encoding of `i`, unless a word of it is no W-bit word; and the words of the line
decode to `i` (30_encoding.md R60). -/
def LineEncodes (W : Nat) (l : AsmLine) (i : Instr) : Prop :=
  l.assemble W = (if i.wf W then some (encode i) else none) ∧ decode l.words = .ok i

/-- A register-index operand with its register renamed by `π`; any other word as it stands. -/
def renameOperand (π : Reg → Reg) (w : Int) : Int :=
  match Reg.ofWord? w with
  | some r => (π r).index
  | none => w

/-- An instruction with its registers renamed by `π`. -/
def renameInstr (π : Reg → Reg) : Instr → Instr
  | .nop => .nop
  | .movRImm t v => .movRImm (renameOperand π t) v
  | .movRR t s => .movRR (renameOperand π t) (renameOperand π s)
  | .movRMem t a => .movRMem (renameOperand π t) a
  | .movRInd t a => .movRInd (renameOperand π t) (renameOperand π a)
  | .movMemR a s => .movMemR a (renameOperand π s)
  | .movIndR a s => .movIndR (renameOperand π a) (renameOperand π s)

/-- `t` is `s` with its registers renamed by `π`. -/
structure Renamed (π : Reg → Reg) (s t : State) : Prop where
  registers : ∀ r, t.x.get (π r) = s.x.get r
  memory : t.mem = s.mem
  ip : t.ip = s.ip
  phase : t.phase = s.phase
  record : t.fault = s.fault
  params : t.params = s.params

end Sys2Proof.Machine
end

