-- ==== Sys2Proof/Certificates/Slice0/Obligations.lean ====
section
/-!
DEFINITION. The statements about the model, for the provers. Each docstring names the rule or the section of spec/ it
formalises; where a statement rests on the spec's own decision (92_eei_decisions.md) or on the model's choice, it says so.
-/

open Sys2Proof Sys2Proof.Machine

/-! ### Encoding -/

/-- 30_encoding.md §1, §3: packing a well-formed instruction into bits and decoding the bits gives it back, at every
width W and with every operand value the width admits. -/
def Obligations.EncodeThenDecodeBitsGivesTheInstruction : Prop :=
  ∀ (W : Nat) (i : Instr), i.wf W = true → decodeBits W (W * i.length) (encodeBits W i) = some i

/-- 30_encoding.md §1, §3: a list of words that decodes begins with the encoding of the instruction decoded, which is
well formed at every width the words have. -/
def Obligations.DecodedWordsBeginWithTheEncoding : Prop :=
  ∀ (ws : List Int) (i : Instr), decode ws = .ok i →
    encode i = ws.take i.length ∧ ∀ W, (∀ v ∈ ws, Word.fits W v = true) → i.wf W = true

/-- 30_encoding.md R51: the opcode word selects opcode v exactly when its value is v, for v in 0..6, and any other value
is a decode failure. -/
def Obligations.OpcodeWordSelectsByItsValue : Prop :=
  (∀ (op w1 w2 : Int) (rest : List Int), decode (op :: w1 :: w2 :: rest) =
    if op = 0 then .ok .nop
    else if op = 1 then .ok (.movRImm w1 w2)
    else if op = 2 then .ok (.movRR w1 w2)
    else if op = 3 then .ok (.movRMem w1 w2)
    else if op = 4 then .ok (.movRInd w1 w2)
    else if op = 5 then .ok (.movMemR w1 w2)
    else if op = 6 then .ok (.movIndR w1 w2)
    else .error (.illegalOpcode op)) ∧
  (∀ (op : Int) (rest : List Int), decode (op :: rest) = .error (.illegalOpcode op) ↔ op < 0 ∨ 6 < op)

/-- 30_encoding.md R49: an instruction is 1 or 3 consecutive words of memory from `ip`, the opcode word first and its
operand words after it; the value of the opcode word alone decides which. -/
def Obligations.OpcodeWordDecidesTheLength : Prop :=
  ∀ (s : State) (i : Instr), decode s.fetchWindow = .ok i →
    0 ≤ s.cell s.ip ∧ s.cell s.ip ≤ 6 ∧ i.length = (if s.cell s.ip = 0 then 1 else 3) ∧
    (encode i).length = i.length ∧
    ∀ (k : Nat) (v : Int), (encode i)[k]? = some v → s.ip + k < s.params.memSize ∧ v = s.cell (s.ip + k)

/-- 95_test_vectors.md §1, §2 (E1, I3, R1, E2, X1, S1, T1) and an illegal opcode (E3): words written out at W = 32. That the
first word is the lowest 32 bits of the number is the model's choice (notes/assumptions/12.md), in no rule of the spec. -/
def Obligations.WrittenOutWordsDecode : Prop :=
  decodeTableWord 32 0x00000000 = some .nop ∧
  decodeTableWord 96 0x000001A4_00000002_00000001 = some (.movRImm 2 420) ∧
  decodeTableWord 96 0x80000000_00000000_00000001 = some (.movRImm 0 (-2147483648)) ∧
  decodeTableWord 96 0x00000000_00000003_00000002 = some (.movRR 3 0) ∧
  decodeTableWord 96 0x0000000A_00000000_00000003 = some (.movRMem 0 10) ∧
  decodeTableWord 96 0x00000002_00000000_00000004 = some (.movRInd 0 2) ∧
  decodeTableWord 96 0x00000001_00000064_00000005 = some (.movMemR 100 1) ∧
  decodeTableWord 96 0x00000003_00000002_00000006 = some (.movIndR 2 3) ∧
  decodeTableWord 32 0x00000063 = none

/-! ### Step -/

/-- 40_dispatch.md §1, §2: where the words at `ip` decode to `i`, a Step outside FAULTED is the execution of `i`, with
the phase RUNNING. -/
def Obligations.StepRunsTheDecodedInstruction : Prop :=
  ∀ (s : State) (i : Instr), s.phase ≠ .faulted → decode s.fetchWindow = .ok i →
    step s = exec i { s with phase := .running }

/-- 40_dispatch.md §1, §2: where the cells from `ip` hold the encoding of `i`, a Step outside FAULTED is the execution of
`i`, with the phase RUNNING. No other cell matters: a NOP may stand in the last cell. -/
def Obligations.StepRunsTheInstructionEncodedAtIp : Prop :=
  ∀ (s : State) (i : Instr), s.phase ≠ .faulted → s.ip + i.length ≤ s.params.memSize →
    (∀ (k : Nat) (v : Int), (encode i)[k]? = some v → s.cell (s.ip + k) = v) →
    step s = exec i { s with phase := .running }

/-- 60_exceptions.md §1 and 30_encoding.md §4: an opcode word outside 0..6 is a DECODE_FAILURE that changes no
architectural state. The record's codes are the spec's decision D6. -/
def Obligations.IllegalOpcodeWordFaults : Prop :=
  ∀ s : State, s.phase ≠ .faulted → s.ip < s.params.memSize → (s.cell s.ip < 0 ∨ 6 < s.cell s.ip) →
    ∃ t, step s = .next t ∧ TookFault s t .decodeFailure 0 (s.cell s.ip) ∧ t.fault.kind = 1 ∧ t.fault.detail = 0

/-- 60_exceptions.md §1 and 40_dispatch.md §2: the fetch that leaves the memory is an IP_OUT_OF_RANGE, OPCODE_FETCH for
the opcode word and OPERAND_FETCH with the first missing word for an operand word. The filing of the operand case and
the codes are the spec's decisions D4 and D6; that an `ip` above MEM_SIZE faults as MEM_SIZE does is the model's reading
(notes/assumptions/3.md). -/
def Obligations.FetchPastTheLastCellFaults : Prop :=
  ∀ s : State, s.phase ≠ .faulted →
    (s.params.memSize ≤ s.ip →
      ∃ t, step s = .next t ∧ TookFault s t .opcodeFetch 0 0 ∧ t.fault.kind = 3 ∧ t.fault.detail = 0) ∧
    (s.ip + 1 = s.params.memSize → 1 ≤ s.cell s.ip → s.cell s.ip ≤ 6 →
      ∃ t, step s = .next t ∧ TookFault s t .operandFetch 1 0 ∧ t.fault.kind = 3 ∧ t.fault.detail = 1) ∧
    (s.ip + 2 = s.params.memSize → 1 ≤ s.cell s.ip → s.cell s.ip ≤ 6 →
      ∃ t, step s = .next t ∧ TookFault s t .operandFetch 2 0 ∧ t.fault.kind = 3 ∧ t.fault.detail = 1)

/-- 40_dispatch.md R72: a Step that commits ends at `ip + 1 + arity`, that is `ip + 1` for NOP and `ip + 3` for opcodes
1 to 6, which is never above MEM_SIZE. -/
def Obligations.CommittedStepAdvancesIpByItsLength : Prop :=
  ∀ s t : State, s.phase ≠ .faulted → step s = .next t → t.phase ≠ .faulted →
    t.ip ≤ s.params.memSize ∧
    ∃ i, decode s.fetchWindow = .ok i ∧ t.ip = s.ip + 1 + i.opcode.arity ∧
      t.ip = s.ip + (if i = .nop then 1 else 3)

/-- 40_dispatch.md R71: a Step that fails a check writes nothing, latches the record and enters FAULTED. -/
def Obligations.FaultingStepWritesNothing : Prop :=
  ∀ s t : State, s.phase ≠ .faulted → step s = .next t → t.phase = .faulted →
    ∃ (f : Fault) (k : BitVec 2) (v : Int), TookFault s t f k v

/-- 40_dispatch.md §5: every Step answers a next state, and the reply is FAULT with the latched record exactly when it
leaves FAULTED, else OK. That a fault is answered as a next state is the model's choice (notes/assumptions/5.md). -/
def Obligations.StepAlwaysAnswersOkOrFault : Prop :=
  ∀ s : State, ∃ t, step s = .next t ∧
    serve .step s = .next (t, if t.phase = .faulted then .fault t.fault else .ok)

/-- 10_state.md §3 (derived there): `ip` never decreases and never leaves 0..MEM_SIZE. -/
def Obligations.IpNeverDecreasesAndStaysInside : Prop :=
  ∀ s t : State, step s = .next t → s.ip ≤ t.ip ∧ (s.ip ≤ s.params.memSize → t.ip ≤ s.params.memSize)

/-- 10_state.md §6 (the spec's decision D10): a Step leaves RUNNING or FAULTED, and in FAULTED it changes nothing. -/
def Obligations.StepLeavesRunningOrFaulted : Prop :=
  ∀ s t : State, step s = .next t →
    (t.phase = .running ∨ t.phase = .faulted) ∧ (s.phase = .faulted → t = s)

/-- 70_reset_and_hazards.md §2 (derived there): from every state, MEM_SIZE - ip Steps and one more end in FAULTED,
because `ip` strictly increases at every committed Step, and a run that faulted stays FAULTED by the spec's decision D7. -/
def Obligations.EveryRunFaultsWithinTheMemory : Prop :=
  ∀ s : State, ∃ t : State,
    Host.Core.run Sys2Proof.core (s.params.memSize - s.ip + 1) s = .next t ∧ t.phase = .faulted

/-- 40_dispatch.md §5 and 60_exceptions.md §3 (the spec's decisions D7 and D8): a run that stops at the first FAULT ends
in the state that all its requested Steps end in, so the FAULTED latch loses no run. -/
def Obligations.StoppingAtTheFirstFaultLosesNothing : Prop :=
  ∀ (k : Nat) (s : State), runSteps k s = Host.Core.run Sys2Proof.core k s

/-- 30_encoding.md §3 and 70_reset_and_hazards.md §2 (derived there): cells that hold 0 execute as NOPs, one cell per
Step, with registers, memory and record unchanged. -/
def Obligations.ZeroCellsRunAsNops : Prop :=
  ∀ (k : Nat) (s : State), s.phase ≠ .faulted → s.ip + k ≤ s.params.memSize →
    (∀ a, s.ip ≤ a → a < s.ip + k → s.cell a = 0) →
    ∃ t : State, Host.Core.run Sys2Proof.core k s = .next t ∧ t.ip = s.ip + k ∧ t.x = s.x ∧ t.mem = s.mem ∧
      t.fault = s.fault ∧ t.params = s.params ∧ (0 < k → t.phase = .running)

/-! ### The instructions -/

/-- 41_nop.md R78: NOP is the word 0; it leaves registers and memory unchanged and advances `ip` by exactly 1, in a
Step too, at every cell index, the last one among them. -/
def Obligations.NopOnlyAdvancesIp : Prop :=
  (∀ rest, decode (0 :: rest) = .ok .nop) ∧
  (∀ s : State, ∃ t, exec .nop s = .next t ∧ WroteNothing s t (s.ip + 1)) ∧
  (∀ s : State, s.phase ≠ .faulted → s.ip < s.params.memSize → s.cell s.ip = 0 →
    ∃ t, step s = .next t ∧ WroteNothing { s with phase := .running } t (s.ip + 1))

/-- 42_mov_register.md R79: MOV reg, imm writes the immediate, whatever it is, to the target and nothing else, or
faults on a target that is no register index. -/
def Obligations.MovRImmWritesTheImmediate : Prop :=
  ∀ (s : State) (w1 w2 : Int),
    decode [1, w1, w2] = .ok (.movRImm w1 w2) ∧
    (∀ r : Reg, w1 = r.index → ∃ t, exec (.movRImm w1 w2) s = .next t ∧ WroteRegister s t r w2 (s.ip + 3)) ∧
    (BadIndex w1 → ∃ t, exec (.movRImm w1 w2) s = .next t ∧ TookFault s t .regIndex 1 w1)

/-- 42_mov_register.md: MOV reg, reg copies the source register, read at the start of the Step, to the target and writes
nothing else, or faults on the first operand word that is no register index. That word 1 is reported where both operand words are
bad is the order of checks, the spec's decision D5 (notes/assumptions/6.md). -/
def Obligations.MovRRCopiesTheSource : Prop :=
  ∀ (s : State) (w1 w2 : Int),
    decode [2, w1, w2] = .ok (.movRR w1 w2) ∧
    (∀ r q : Reg, w1 = r.index → w2 = q.index →
      ∃ t, exec (.movRR w1 w2) s = .next t ∧ WroteRegister s t r (s.x.get q) (s.ip + 3)) ∧
    (BadIndex w1 → ∃ t, exec (.movRR w1 w2) s = .next t ∧ TookFault s t .regIndex 1 w1) ∧
    (∀ r : Reg, w1 = r.index → BadIndex w2 →
      ∃ t, exec (.movRR w1 w2) s = .next t ∧ TookFault s t .regIndex 2 w2)

/-- 43_mov_load.md: MOV reg, [addr] loads the word of the cell the address names, of this instruction too, into the
target and writes nothing else, or faults on the first operand word out of range; no address wraps. That word 1 is reported where both operand words are
bad is the order of checks, the spec's decision D5 (notes/assumptions/6.md). -/
def Obligations.MovRMemLoadsTheCell : Prop :=
  ∀ (s : State) (w1 w2 : Int),
    decode [3, w1, w2] = .ok (.movRMem w1 w2) ∧
    (∀ (r : Reg) (a : Nat), w1 = r.index → w2 = (a : Int) → a < s.params.memSize →
      ∃ t, exec (.movRMem w1 w2) s = .next t ∧ WroteRegister s t r (s.cell a) (s.ip + 3)) ∧
    (BadIndex w1 → ∃ t, exec (.movRMem w1 w2) s = .next t ∧ TookFault s t .regIndex 1 w1) ∧
    (∀ r : Reg, w1 = r.index → BadAddress s w2 →
      ∃ t, exec (.movRMem w1 w2) s = .next t ∧ TookFault s t .memDirect 2 w2)

/-- 43_mov_load.md: MOV reg, [reg] loads the word of the cell that the address-holding register's value names (read at the
start of the Step, so also where it is the target) into the target and writes nothing else, or faults on the first check
that fails. Which check is first where several fail is the order of checks, the spec's decision D5
(notes/assumptions/6.md). -/
def Obligations.MovRIndLoadsThroughTheRegister : Prop :=
  ∀ (s : State) (w1 w2 : Int),
    decode [4, w1, w2] = .ok (.movRInd w1 w2) ∧
    (∀ (r q : Reg) (a : Nat), w1 = r.index → w2 = q.index → s.x.get q = (a : Int) → a < s.params.memSize →
      ∃ t, exec (.movRInd w1 w2) s = .next t ∧ WroteRegister s t r (s.cell a) (s.ip + 3)) ∧
    (BadIndex w1 → ∃ t, exec (.movRInd w1 w2) s = .next t ∧ TookFault s t .regIndex 1 w1) ∧
    (∀ r : Reg, w1 = r.index → BadIndex w2 →
      ∃ t, exec (.movRInd w1 w2) s = .next t ∧ TookFault s t .regIndex 2 w2) ∧
    (∀ r q : Reg, w1 = r.index → w2 = q.index → BadAddress s (s.x.get q) →
      ∃ t, exec (.movRInd w1 w2) s = .next t ∧ TookFault s t .memIndirect 2 (s.x.get q))

/-- 44_mov_store.md: MOV [addr], reg stores the source register in the cell the address names, of this instruction too, and
writes nothing else, or faults on the first operand word out of range. The premise on `mem` is the invariant that
`StepKeepsTheInvariant` keeps. That word 1 is reported where both operand words are
bad is the order of checks, the spec's decision D5 (notes/assumptions/6.md). -/
def Obligations.MovMemRStoresTheRegister : Prop :=
  ∀ (s : State) (w1 w2 : Int), s.mem.wf = true →
    decode [5, w1, w2] = .ok (.movMemR w1 w2) ∧
    (∀ (a : Nat) (q : Reg), w1 = (a : Int) → a < s.params.memSize → w2 = q.index →
      ∃ t, exec (.movMemR w1 w2) s = .next t ∧ WroteCell s t a (s.x.get q) (s.ip + 3)) ∧
    (BadAddress s w1 → ∃ t, exec (.movMemR w1 w2) s = .next t ∧ TookFault s t .memDirect 1 w1) ∧
    (∀ a : Nat, w1 = (a : Int) → a < s.params.memSize → BadIndex w2 →
      ∃ t, exec (.movMemR w1 w2) s = .next t ∧ TookFault s t .regIndex 2 w2)

/-- 44_mov_store.md: MOV [reg], reg stores the source register in the cell that the address-holding register's value names,
also where the two are one register, and writes nothing else, or faults on the first check that fails. Which check is
first where several fail is the order of checks, the spec's decision D5 (notes/assumptions/6.md). The premise on `mem` is
the invariant that `StepKeepsTheInvariant` keeps. -/
def Obligations.MovIndRStoresThroughTheRegister : Prop :=
  ∀ (s : State) (w1 w2 : Int), s.mem.wf = true →
    decode [6, w1, w2] = .ok (.movIndR w1 w2) ∧
    (∀ (p q : Reg) (a : Nat), w1 = p.index → s.x.get p = (a : Int) → a < s.params.memSize → w2 = q.index →
      ∃ t, exec (.movIndR w1 w2) s = .next t ∧ WroteCell s t a (s.x.get q) (s.ip + 3)) ∧
    (BadIndex w1 → ∃ t, exec (.movIndR w1 w2) s = .next t ∧ TookFault s t .regIndex 1 w1) ∧
    (∀ p : Reg, w1 = p.index → BadAddress s (s.x.get p) →
      ∃ t, exec (.movIndR w1 w2) s = .next t ∧ TookFault s t .memIndirect 1 (s.x.get p)) ∧
    (∀ (p : Reg) (a : Nat), w1 = p.index → s.x.get p = (a : Int) → a < s.params.memSize → BadIndex w2 →
      ∃ t, exec (.movIndR w1 w2) s = .next t ∧ TookFault s t .regIndex 2 w2)

/-! ### Whole-machine rules -/

/-- 10_state.md §2: a register changes only as the target of opcode 1, 2, 3 or 4. -/
def Obligations.OnlyTheTargetOfAMoveChanges : Prop :=
  ∀ (i : Instr) (s t : State) (q : Reg), exec i s = .next t → t.x.get q ≠ s.x.get q →
    ∃ w : Int, i = .movRImm q.index w ∨ i = .movRR q.index w ∨ i = .movRMem q.index w ∨ i = .movRInd q.index w

/-- 10_state.md §4: an instruction changes a cell only as a store that names it, directly or by the value of its
address-holding register, and the cell then holds the source register's word. -/
def Obligations.OnlyAStoreToTheCellChangesIt : Prop :=
  ∀ (i : Instr) (s t : State) (a : Nat), s.mem.wf = true → exec i s = .next t → t.cell a ≠ s.cell a →
    ∃ q : Reg, t.cell a = s.x.get q ∧
      (i = .movMemR (a : Int) q.index ∨ ∃ p : Reg, s.x.get p = (a : Int) ∧ i = .movIndR p.index q.index)

/-- 40_dispatch.md §4 (derived there): a Step changes no register but the one its instruction names as its target, and no
cell but the one its instruction stores to, the address as the meaning computes it (`storeAddress`); no instruction has
both; and a Step that decodes no instruction changes neither. -/
def Obligations.StepWritesAtMostOneRegisterOrCell : Prop :=
  ∀ s t : State, s.mem.wf = true → step s = .next t →
    (∀ i, decode s.fetchWindow = .ok i →
      (∀ q, targetRegister i ≠ some q → t.x.get q = s.x.get q) ∧
      (∀ b, storeAddress s i ≠ some b → t.cell b = s.cell b) ∧
      (targetRegister i = none ∨ storeAddress s i = none)) ∧
    ((∀ i, decode s.fetchWindow ≠ .ok i) → t.x = s.x ∧ t.mem = s.mem)

/-- 20_memory.md §1: opcodes 0, 1 and 2 touch no memory outside the instruction stream, so they do the same whatever the
memory holds, and leave it as it is. -/
def Obligations.RegisterInstructionsIgnoreMemory : Prop :=
  ∀ (i : Instr) (s : State) (m : Memory), (i = .nop ∨ ∃ w1 w2, i = .movRImm w1 w2 ∨ i = .movRR w1 w2) →
    ∃ t, exec i s = .next t ∧ t.mem = s.mem ∧ exec i { s with mem := m } = .next { t with mem := m }

/-- 92_eei_decisions.md D1, D3: no instruction depends on W or on IP_WIDTH, only on MEM_SIZE. -/
def Obligations.InstructionsDoNotDependOnTheWordWidth : Prop :=
  ∀ (i : Instr) (s t : State) (p : Params), p.memSize = s.params.memSize → exec i s = .next t →
    exec i { s with params := p } = .next { t with params := p }

/-- 10_state.md §2: no register has a special role. Renaming the registers of a state and of an instruction by any
permutation renames the result and changes nothing else. -/
def Obligations.RegistersAreInterchangeable : Prop :=
  ∀ (π : Reg → Reg), Function.Injective π → ∀ (i : Instr) (s s' t : State), Renamed π s s' →
    exec i s = .next t → ∃ t', exec (renameInstr π i) s' = .next t' ∧ Renamed π t t'

/-- 20_memory.md §4 (derived there): a store, direct or through a register, into the next instruction's opcode word is what
the next Step executes: a NOP where the word stored is 0, the MOV form of that number with the two words after it where
it is 1 to 6 (or OPERAND_FETCH where such a word is past the last cell, filed there by the spec's decision D4), and a
decode failure where it is outside 0..6. -/
def Obligations.NextStepFetchesTheStoredWord : Prop :=
  ∀ (s : State) (q : Reg), s.phase ≠ .faulted → s.mem.wf = true → s.ip + 3 < s.params.memSize →
    (s.cell s.ip = 5 ∧ s.cell (s.ip + 1) = ((s.ip + 3 : Nat) : Int) ∨
      s.cell s.ip = 6 ∧ ∃ p : Reg, s.cell (s.ip + 1) = p.index ∧ s.x.get p = ((s.ip + 3 : Nat) : Int)) →
    s.cell (s.ip + 2) = q.index →
    ∃ t, step s = .next t ∧ t.phase = .running ∧ t.ip = s.ip + 3 ∧ t.cell (s.ip + 3) = s.x.get q ∧
      (s.x.get q = 0 → ∃ u, step t = .next u ∧ WroteNothing t u (s.ip + 4)) ∧
      (s.ip + 5 < s.params.memSize →
        (s.x.get q = 1 → step t = exec (.movRImm (s.cell (s.ip + 4)) (s.cell (s.ip + 5))) t) ∧
        (s.x.get q = 2 → step t = exec (.movRR (s.cell (s.ip + 4)) (s.cell (s.ip + 5))) t) ∧
        (s.x.get q = 3 → step t = exec (.movRMem (s.cell (s.ip + 4)) (s.cell (s.ip + 5))) t) ∧
        (s.x.get q = 4 → step t = exec (.movRInd (s.cell (s.ip + 4)) (s.cell (s.ip + 5))) t) ∧
        (s.x.get q = 5 → step t = exec (.movMemR (s.cell (s.ip + 4)) (s.cell (s.ip + 5))) t) ∧
        (s.x.get q = 6 → step t = exec (.movIndR (s.cell (s.ip + 4)) (s.cell (s.ip + 5))) t)) ∧
      (s.ip + 4 = s.params.memSize → 1 ≤ s.x.get q → s.x.get q ≤ 6 →
        ∃ u, step t = .next u ∧ TookFault t u .operandFetch 1 0) ∧
      (s.ip + 5 = s.params.memSize → 1 ≤ s.x.get q → s.x.get q ≤ 6 →
        ∃ u, step t = .next u ∧ TookFault t u .operandFetch 2 0) ∧
      ((s.x.get q < 0 ∨ 6 < s.x.get q) →
        ∃ u, step t = .next u ∧ TookFault t u .decodeFailure 0 (s.x.get q))

/-! ### Invariants -/

/-- 10_state.md §7: the reset of every instance with legal parameters is a legal state; the documented instance's is
one. The documented instance is the model's choice (notes/assumptions/1.md, 2.md, 3.md). -/
def Obligations.ResetMeetsTheInvariant : Prop :=
  (∀ p : Params, p.wf = true → (State.resetWith p).Inv) ∧ State.reset.Inv

/-- 10_state.md §3, §4 and 60_exceptions.md §2: a Step from a legal state leads to a legal state, on every instance: the
memory stays canonical and inside MEM_SIZE, cells and registers stay W-bit words, `ip` stays in 0..MEM_SIZE, the record
stays legal and valid exactly in FAULTED. -/
def Obligations.StepKeepsTheInvariant : Prop :=
  ∀ s t : State, s.Inv → step s = .next t → t.Inv

/-- 10_state.md §7: whatever the host requests, in any order, a legal state stays legal. -/
def Obligations.EverySessionKeepsTheInvariant : Prop :=
  ∀ (rs : List Request) (s t : State) (as : List Reply), s.Inv → session rs s = .next (t, as) → t.Inv

/-- 10_state.md §1 and 00_scope.md §3: no request changes the parameters of the instance, so neither array is ever
resized. -/
def Obligations.NoRequestChangesTheParameters : Prop :=
  ∀ (rs : List Request) (s t : State) (as : List Reply), session rs s = .next (t, as) → t.params = s.params

/-- The model's own form of memory (notes/assumptions/4.md; 20_memory.md §1): canonical memories that read alike are
equal data. -/
def Obligations.CanonicalMemoriesThatReadAlikeAreEqual : Prop :=
  ∀ m n : Memory, m.wf = true → n.wf = true → (∀ a, m.read a = n.read a) → m = n

/-! ### Reset and the host interface -/

/-- 10_state.md §7: the values after reset of the documented instance. The phase LOADING and the clear record are the spec's
decisions D10 and D6 (notes/assumptions/8.md, 7.md). -/
def Obligations.ResetSetsEveryPieceOfState : Prop :=
  (∀ a, State.reset.cell a = 0) ∧ (∀ r, State.reset.x.get r = 0) ∧ State.reset.ip = 0 ∧
  State.reset.phase = .loading ∧ State.reset.fault.valid = false ∧ State.reset.fault.kind = 0 ∧
  State.reset.fault.detail = 0 ∧ State.reset.fault.word = 0 ∧ State.reset.fault.value = 0 ∧
  State.reset.fault.faultIp = 0

/-- 70_reset_and_hazards.md §1 (the spec's decision D9): Reset is accepted in every state, and what follows it in a
session starts from the reset state of the same instance, whatever came before. -/
def Obligations.ResetForgetsEverythingBefore : Prop :=
  ∀ (before after : List Request) (s t : State) (as : List Reply),
    session (before ++ .reset :: after) s = .next (t, as) →
    ∃ as', session after (State.resetWith s.params) = .next (t, as') ∧ as.drop (before.length + 1) = as' ∧
      as[before.length]? = some .accepted

/-- 10_state.md §7 (the spec's decisions D10 and D21): a HostWrite is accepted in LOADING for a cell index, and writes that
cell only; otherwise it is refused with no effect. That a value which is no W-bit word is refused is the model's reading
(notes/assumptions/9.md). -/
def Obligations.HostWriteIsAcceptedOnlyInLoading : Prop :=
  ∀ (s : State) (a v : Int), s.mem.wf = true →
    (s.phase = .loading → 0 ≤ a → a < (s.params.memSize : Int) → Word.fits s.params.wordBits v = true →
      ∃ t, serve (.hostWrite a v) s = .next (t, .accepted) ∧ WroteCell s t a.toNat v s.ip) ∧
    ((s.phase ≠ .loading ∨ a < 0 ∨ (s.params.memSize : Int) ≤ a ∨ Word.fits s.params.wordBits v = false) →
      serve (.hostWrite a v) s = .next (s, .refused))

/-- 10_state.md §7 (the spec's decision D9): Observe returns memory, registers, `ip`, phase and record, in every phase,
and a session without its Observes ends in the same state. -/
def Obligations.ObserveShowsTheStateAndChangesNothing : Prop :=
  (∀ s : State, ∃ v : View, serve .observe s = .next (s, .observed v) ∧
    v.mem = s.mem ∧ v.x = s.x ∧ v.ip = s.ip ∧ v.phase = s.phase ∧ v.fault = s.fault) ∧
  (∀ (rs : List Request) (s t : State) (as : List Reply), session rs s = .next (t, as) →
    ∃ as', session (rs.filter fun r => decide (r ≠ .observe)) s = .next (t, as'))

/-- 60_exceptions.md §3 (the spec's decision D7): in FAULTED, every sequence of requests without a Reset changes nothing;
each Step returns the same record and each HostWrite is refused. -/
def Obligations.OnlyResetLeavesFaulted : Prop :=
  ∀ (rs : List Request) (s : State), s.phase = .faulted → Request.reset ∉ rs →
    session rs s = .next (s, rs.map fun r =>
      match r with
      | .reset => .accepted
      | .hostWrite _ _ => .refused
      | .step => .fault s.fault
      | .observe => .observed s.view)

/-- 70_reset_and_hazards.md §2: Reset and the HostWrites of an image leave the image from cell 0, every other cell and
every register 0, `ip` = 0 and the phase LOADING, from any state. -/
def Obligations.BootLoadsTheImage : Prop :=
  ∀ (image : List Int) (s : State), image.length ≤ s.params.memSize →
    (∀ v ∈ image, Word.fits s.params.wordBits v = true) →
    ∃ t as, session (bootRequests image 0) s = .next (t, as) ∧
      (∀ (k : Nat) (v : Int), image[k]? = some v → t.cell k = v) ∧ (∀ a, image.length ≤ a → t.cell a = 0) ∧
      (∀ r, t.x.get r = 0) ∧ t.ip = 0 ∧ t.phase = .loading ∧ t.fault = FaultRecord.clear ∧ t.params = s.params

/-! ### The fault record -/

/-- 60_exceptions.md §2 (the spec's decision D6): the status word is `VALID + 2*DETAIL + 8*KIND + 32*WORD`, so its bits
from 7 up read 0, on every instance whose words have 7 bits or more. -/
def Obligations.StatusWordPacksTheRecord : Prop :=
  ∀ (r : FaultRecord) (W : Nat), 7 ≤ W →
    (r.statusWord W).toNat =
      (if r.valid then 1 else 0) + 2 * r.detail.toNat + 8 * r.kind.toNat + 32 * r.word.toNat ∧
    (r.statusWord W).toNat / 2 % 16 = r.causeCode.toNat

/-- 60_exceptions.md §2 (the spec's decision D6): VALUE and FAULT_IP read as two further words of W bits: the signed value
of the first is VALUE, and the second is FAULT_IP zero-extended, on every legal record of a legal instance. -/
def Obligations.ValueAndFaultIpReadAsWords : Prop :=
  ∀ (r : FaultRecord) (p : Params), p.wf = true → r.legal p = true →
    (r.valueWord p.wordBits).toInt = r.value ∧ (r.faultIpWord p.wordBits).toNat = r.faultIp

/-- 60_exceptions.md §2 (the spec's decision D6): the cause codes of the six faults, and 0x0 for the clear record. -/
def Obligations.CauseCodesOfTheFaults : Prop :=
  FaultRecord.clear.causeCode = 0x0 ∧
  ∀ (k : BitVec 2) (v : Int) (ip : Nat),
    (Report.record { cause := .decodeFailure, word := k, value := v } ip).causeCode = 0x4 ∧
    (Report.record { cause := .regIndex, word := k, value := v } ip).causeCode = 0x8 ∧
    (Report.record { cause := .memDirect, word := k, value := v } ip).causeCode = 0x9 ∧
    (Report.record { cause := .memIndirect, word := k, value := v } ip).causeCode = 0xA ∧
    (Report.record { cause := .opcodeFetch, word := k, value := v } ip).causeCode = 0xC ∧
    (Report.record { cause := .operandFetch, word := k, value := v } ip).causeCode = 0xD

/-! ### Assembly -/

/-- 30_encoding.md §5 (the spec's decision D12): the instruction each row of the syntax encodes, with a word that does not
fit in W bits as the only way to fail; `.word v` is the one raw word v. -/
def Obligations.EveryAssemblyLineEncodesItsInstruction : Prop :=
  ∀ W : Nat,
    LineEncodes W .nop .nop ∧
    (∀ (t : Reg) (imm : Int), LineEncodes W (.movRImm t imm) (.movRImm t.index imm)) ∧
    (∀ t s : Reg, LineEncodes W (.movRR t s) (.movRR t.index s.index)) ∧
    (∀ (t : Reg) (addr : Int), LineEncodes W (.movRMem t addr) (.movRMem t.index addr)) ∧
    (∀ t a : Reg, LineEncodes W (.movRInd t a) (.movRInd t.index a.index)) ∧
    (∀ (addr : Int) (s : Reg), LineEncodes W (.movMemR addr s) (.movMemR addr s.index)) ∧
    (∀ a s : Reg, LineEncodes W (.movIndR a s) (.movIndR a.index s.index)) ∧
    (∀ v : Int, (AsmLine.word v).assemble W = if Word.fits W v then some [v] else none)
end

