-- ==== Sys2Proof/Laws/Decode.lean ====
section
/-!
SUPPORT. What the decoder answers, and words and bits.
-/

namespace Sys2Proof

@[simp] theorem Opcode.ofWord?_value (o : Opcode) : Opcode.ofWord? o.value = some o := by
  cases o <;> rfl

/-- A word selects an opcode exactly when it is that opcode's value. -/
theorem Opcode.ofWord?_eq_some {v : Int} {o : Opcode} : Opcode.ofWord? v = some o ↔ v = o.value := by
  constructor
  · intro h
    have := List.find?_some h
    simpa using (of_decide_eq_true this).symm
  · rintro rfl
    exact Opcode.ofWord?_value o

/-- A word selects no opcode exactly when it is outside 0..6. -/
theorem Opcode.ofWord?_eq_none {v : Int} : Opcode.ofWord? v = none ↔ v < 0 ∨ 6 < v := by
  constructor
  · intro h
    by_contra hc
    have hv : v = 0 ∨ v = 1 ∨ v = 2 ∨ v = 3 ∨ v = 4 ∨ v = 5 ∨ v = 6 := by omega
    rcases hv with rfl | rfl | rfl | rfl | rfl | rfl | rfl <;> exact absurd h (by decide)
  · intro h
    cases hv : Opcode.ofWord? v with
    | none => rfl
    | some o =>
      have hv := Opcode.ofWord?_eq_some.mp hv
      cases o <;> simp only [Opcode.value] at hv <;> omega

/-- Everything decode can accept: a NOP, or an opcode with two operand words after it. -/
theorem decode_cases {ws : List Int} {i : Instr} (h : decode ws = .ok i) :
    (i = .nop ∧ ∃ rest, ws = 0 :: rest) ∨
    (∃ o w1 w2 rest, o ≠ Opcode.nop ∧ i = o.build w1 w2 ∧ ws = o.value :: w1 :: w2 :: rest) := by
  cases ws with
  | nil => simp [decode] at h
  | cons op rest =>
    simp only [decode] at h
    split at h
    · cases h
    · next o ho =>
      obtain rfl := Opcode.ofWord?_eq_some.mp ho
      by_cases hn : o = .nop
      · subst hn
        left
        simp only [Opcode.arity] at h
        cases h
        exact ⟨rfl, rest, rfl⟩
      · right
        have ha : o.arity = 1 + 1 := by cases o <;> first | rfl | exact absurd rfl hn
        rw [ha] at h
        match rest, h with
        | w1 :: w2 :: rest, h =>
          cases h
          exact ⟨o, w1, w2, rest, hn, rfl, rfl⟩

/-- Everything decode can reject. -/
theorem decode_error_cases {ws : List Int} {e : DecodeError} (h : decode ws = .error e) :
    (e = .noOpcode ∧ ws = []) ∨
    (∃ v rest, e = .illegalOpcode v ∧ ws = v :: rest ∧ (v < 0 ∨ 6 < v)) ∨
    (∃ v, e = .missingOperand 1 ∧ ws = [v] ∧ 1 ≤ v ∧ v ≤ 6) ∨
    (∃ v w1, e = .missingOperand 2 ∧ ws = [v, w1] ∧ 1 ≤ v ∧ v ≤ 6) := by
  cases ws with
  | nil =>
    cases h
    exact .inl ⟨rfl, rfl⟩
  | cons op rest =>
    simp only [decode] at h
    split at h
    · next ho =>
      cases h
      exact .inr (.inl ⟨op, rest, rfl, rfl, Opcode.ofWord?_eq_none.mp ho⟩)
    · next o ho =>
      obtain rfl := Opcode.ofWord?_eq_some.mp ho
      right; right
      match rest, h with
      | [], h => cases o <;> cases h <;> exact .inl ⟨_, rfl, rfl, by decide, by decide⟩
      | [w1], h => cases o <;> cases h <;> exact .inr ⟨_, w1, rfl, rfl, by decide, by decide⟩
      | _ :: _ :: _, h => cases o <;> cases h

/-- The words of an instruction number its length. -/
theorem encode_length (i : Instr) : (encode i).length = i.length := by
  cases i <;> rfl

/-- A W-bit word is the signed value of its W bits. -/
theorem wordOfBits_bitsOfWord {W : Nat} {v : Int} (h : Word.fits W v = true) (hW : 0 < W) :
    wordOfBits W (bitsOfWord W v) = v := by
  simp only [Word.fits, Bool.and_eq_true, decide_eq_true_eq] at h
  rw [wordOfBits, bitsOfWord, BitVec.ofNat_toNat, BitVec.setWidth_eq]
  exact BitVec.toInt_ofInt_eq_self hW h.1 h.2

theorem bitsOfWord_lt (W : Nat) (v : Int) : bitsOfWord W v < 2 ^ W :=
  (BitVec.ofInt W v).isLt

/-- The signed value of W bits depends on the low W bits only. -/
theorem wordOfBits_add_mul (W a b : Nat) : wordOfBits W (a + 2 ^ W * b) = wordOfBits W a := by
  have : BitVec.ofNat W (a + 2 ^ W * b) = BitVec.ofNat W a := by
    apply BitVec.eq_of_toNat_eq
    simp
  simp only [wordOfBits, this]

end Sys2Proof
end

