-- ==== Sys2Proof/Laws/State.lean ====
section
/-!
SUPPORT. One lemma per field per update of the state, so that no proof unfolds a record update.
-/

namespace Sys2Proof.Machine

variable (s : State)

@[simp] theorem State.writeReg_params (r : Reg) (v : Int) : (s.writeReg r v).params = s.params := rfl
@[simp] theorem State.writeReg_mem (r : Reg) (v : Int) : (s.writeReg r v).mem = s.mem := rfl
@[simp] theorem State.writeReg_x (r : Reg) (v : Int) : (s.writeReg r v).x = s.x.set r v := rfl
@[simp] theorem State.writeReg_ip (r : Reg) (v : Int) : (s.writeReg r v).ip = s.ip := rfl
@[simp] theorem State.writeReg_phase (r : Reg) (v : Int) : (s.writeReg r v).phase = s.phase := rfl
@[simp] theorem State.writeReg_fault (r : Reg) (v : Int) : (s.writeReg r v).fault = s.fault := rfl

@[simp] theorem State.writeCell_params (a : Nat) (v : Int) : (s.writeCell a v).params = s.params := rfl
@[simp] theorem State.writeCell_mem (a : Nat) (v : Int) : (s.writeCell a v).mem = s.mem.write a v := rfl
@[simp] theorem State.writeCell_x (a : Nat) (v : Int) : (s.writeCell a v).x = s.x := rfl
@[simp] theorem State.writeCell_ip (a : Nat) (v : Int) : (s.writeCell a v).ip = s.ip := rfl
@[simp] theorem State.writeCell_phase (a : Nat) (v : Int) : (s.writeCell a v).phase = s.phase := rfl
@[simp] theorem State.writeCell_fault (a : Nat) (v : Int) : (s.writeCell a v).fault = s.fault := rfl

@[simp] theorem State.setIp_params (p : Nat) : (s.setIp p).params = s.params := rfl
@[simp] theorem State.setIp_mem (p : Nat) : (s.setIp p).mem = s.mem := rfl
@[simp] theorem State.setIp_x (p : Nat) : (s.setIp p).x = s.x := rfl
@[simp] theorem State.setIp_ip (p : Nat) : (s.setIp p).ip = p := rfl
@[simp] theorem State.setIp_phase (p : Nat) : (s.setIp p).phase = s.phase := rfl
@[simp] theorem State.setIp_fault (p : Nat) : (s.setIp p).fault = s.fault := rfl

@[simp] theorem State.beginStep_params : (s.beginStep).params = s.params := rfl
@[simp] theorem State.beginStep_mem : (s.beginStep).mem = s.mem := rfl
@[simp] theorem State.beginStep_x : (s.beginStep).x = s.x := rfl
@[simp] theorem State.beginStep_ip : (s.beginStep).ip = s.ip := rfl
@[simp] theorem State.beginStep_phase : (s.beginStep).phase = .running := rfl
@[simp] theorem State.beginStep_fault : (s.beginStep).fault = s.fault := rfl

@[simp] theorem State.takeFault_params (r : Report) : (s.takeFault r).params = s.params := rfl
@[simp] theorem State.takeFault_mem (r : Report) : (s.takeFault r).mem = s.mem := rfl
@[simp] theorem State.takeFault_x (r : Report) : (s.takeFault r).x = s.x := rfl
@[simp] theorem State.takeFault_ip (r : Report) : (s.takeFault r).ip = s.ip := rfl
@[simp] theorem State.takeFault_phase (r : Report) : (s.takeFault r).phase = .faulted := rfl
@[simp] theorem State.takeFault_fault (r : Report) : (s.takeFault r).fault = r.record s.ip := rfl

@[simp] theorem State.writeReg_cell (r : Reg) (v : Int) (a : Nat) : (s.writeReg r v).cell a = s.cell a := rfl
@[simp] theorem State.setIp_cell (p a : Nat) : (s.setIp p).cell a = s.cell a := rfl
@[simp] theorem State.beginStep_cell (a : Nat) : s.beginStep.cell a = s.cell a := rfl
@[simp] theorem State.takeFault_cell (r : Report) (a : Nat) : (s.takeFault r).cell a = s.cell a := rfl

@[simp] theorem State.commit_ip (n : Nat) (w : Staged) : (s.commit n w).ip = s.ip + 1 + n := rfl

@[simp] theorem State.commit_params (n : Nat) (w : Staged) : (s.commit n w).params = s.params := by
  cases w <;> rfl

@[simp] theorem State.commit_phase (n : Nat) (w : Staged) : (s.commit n w).phase = s.phase := by
  cases w <;> rfl

@[simp] theorem State.commit_fault (n : Nat) (w : Staged) : (s.commit n w).fault = s.fault := by
  cases w <;> rfl

@[simp] theorem State.commit_nothing_mem (n : Nat) : (s.commit n .nothing).mem = s.mem := rfl
@[simp] theorem State.commit_nothing_x (n : Nat) : (s.commit n .nothing).x = s.x := rfl
@[simp] theorem State.commit_reg_mem (n : Nat) (r : Reg) (v : Int) : (s.commit n (.reg r v)).mem = s.mem := rfl
@[simp] theorem State.commit_reg_x (n : Nat) (r : Reg) (v : Int) : (s.commit n (.reg r v)).x = s.x.set r v := rfl
@[simp] theorem State.commit_cell_mem (n a : Nat) (v : Int) : (s.commit n (.cell a v)).mem = s.mem.write a v := rfl
@[simp] theorem State.commit_cell_x (n a : Nat) (v : Int) : (s.commit n (.cell a v)).x = s.x := rfl

@[simp] theorem State.conclude_ok (n : Nat) (w : Staged) : s.conclude n (.ok w) = .next (s.commit n w) := rfl
@[simp] theorem State.conclude_error (n : Nat) (r : Report) : s.conclude n (.error r) = .next (s.takeFault r) := rfl

@[simp] theorem State.resetWith_params (p : Params) : (State.resetWith p).params = p := rfl
@[simp] theorem State.resetWith_mem (p : Params) : (State.resetWith p).mem = [] := rfl
@[simp] theorem State.resetWith_ip (p : Params) : (State.resetWith p).ip = 0 := rfl
@[simp] theorem State.resetWith_phase (p : Params) : (State.resetWith p).phase = .loading := rfl
@[simp] theorem State.resetWith_fault (p : Params) : (State.resetWith p).fault = FaultRecord.clear := rfl

/-- An update that keeps the parameters keeps which words are cell indices. -/
theorem State.validAddr_of_params_eq {s t : State} (h : t.params = s.params) (a : Int) :
    t.validAddr a = s.validAddr a := by
  simp [State.validAddr, h]

end Sys2Proof.Machine
end

