-- ==== Sys2Proof/Laws/Memory.lean ====
section
/-!
SUPPORT. The laws of memory and of the register file: a read after a write, and that a write keeps the canonical form.
-/

namespace Sys2Proof.Machine

@[simp] theorem Memory.read_nil (a : Nat) : Memory.read [] a = 0 := rfl

theorem Memory.wf_cons {c : Nat × Int} {m : Memory} :
    Memory.wf (c :: m) = true ↔ c.2 ≠ unlistedCell ∧ (∀ d ∈ m, c.1 < d.1) ∧ Memory.wf m = true := by
  obtain ⟨b, u⟩ := c
  simp [Memory.wf, and_assoc]

/-- A cell below every listed one is not listed. -/
theorem Memory.read_of_lt {m : Memory} {a : Nat} (h : ∀ d ∈ m, a < d.1) : m.read a = unlistedCell := by
  induction m with
  | nil => rfl
  | cons c m ih =>
    have hc := h c (by simp)
    have hne : a ≠ c.1 := by omega
    simp [Memory.read, hne, ih fun d hd => h d (by simp [hd])]

/-- Every entry after a write is the one written or one that was there. -/
theorem Memory.mem_write {m : Memory} {a : Nat} {v : Int} {c : Nat × Int} (h : c ∈ m.write a v) :
    c = (a, v) ∨ c ∈ m := by
  induction m with
  | nil =>
    simp only [Memory.write] at h
    split at h <;> simp_all
  | cons d m ih =>
    obtain ⟨b, u⟩ := d
    simp only [Memory.write] at h
    split at h
    · split at h <;> simp_all
    · split at h
      · split at h
        · exact .inr (by simp [h])
        · rcases List.mem_cons.mp h with h | h
          · exact .inl h
          · exact .inr (by simp [h])
      · rcases List.mem_cons.mp h with h | h
        · exact .inr (by simp [h])
        · exact (ih h).imp id fun h => by simp [h]

/-- A write keeps the canonical form. -/
theorem Memory.write_wf {m : Memory} (a : Nat) (v : Int) (h : m.wf = true) : (m.write a v).wf = true := by
  induction m with
  | nil =>
    simp only [Memory.write]
    split <;> simp_all [Memory.wf]
  | cons c m ih =>
    obtain ⟨b, u⟩ := c
    obtain ⟨hu, hlt, hm⟩ := Memory.wf_cons.mp h
    simp only [Memory.write]
    split
    · next hab =>
      split
      · exact h
      · next hv =>
        refine Memory.wf_cons.mpr ⟨hv, fun d hd => ?_, h⟩
        rcases List.mem_cons.mp hd with rfl | hd
        · exact hab
        · exact Nat.lt_trans hab (hlt d hd)
    · split
      · next hab =>
        split
        · exact hm
        · next hv => exact Memory.wf_cons.mpr ⟨hv, fun d hd => hab ▸ hlt d hd, hm⟩
      · next hnlt hne =>
        refine Memory.wf_cons.mpr ⟨hu, fun d hd => ?_, ih hm⟩
        rcases Memory.mem_write hd with rfl | hd
        · simp only; omega
        · exact hlt d hd

/-- What a write does, said once: the cell written holds the word, and every other cell reads as before. -/
theorem Memory.read_write {m : Memory} (a b : Nat) (v : Int) (h : m.wf = true) :
    (m.write a v).read b = if b = a then v else m.read b := by
  induction m with
  | nil =>
    simp only [Memory.write]
    split <;> simp_all [Memory.read, unlistedCell]
  | cons c m ih =>
    obtain ⟨d, u⟩ := c
    obtain ⟨-, hlt, hm⟩ := Memory.wf_cons.mp h
    simp only [Memory.write]
    split
    · next had =>
      have hrd : Memory.read ((d, u) :: m) a = unlistedCell := Memory.read_of_lt fun e he => by
        rcases List.mem_cons.mp he with rfl | he
        · exact had
        · exact Nat.lt_trans had (hlt e he)
      by_cases hv : v = unlistedCell
      · by_cases hb : b = a
        · subst hb; simp [hv, hrd]
        · simp [hv, hb]
      · simp [hv, Memory.read]
    · split
      · next had =>
        subst had
        by_cases hv : v = unlistedCell
        · by_cases hb : b = a
          · subst hb; simpa [hv] using Memory.read_of_lt hlt
          · simp [hv, hb, Memory.read]
        · by_cases hb : b = a <;> simp [hv, hb, Memory.read]
      · next hnlt hne =>
        by_cases hbd : b = d
        · have : b ≠ a := fun hba => hne (hba ▸ hbd)
          simp [Memory.read, hbd, hbd ▸ this]
        · simp [Memory.read, hbd, ih hm]

@[simp] theorem RegFile.get_set (x : RegFile) (r q : Reg) (v : Int) :
    (x.set r v).get q = if q = r then v else x.get q := by
  cases r <;> cases q <;> rfl

/-- A register file is its four words. -/
theorem RegFile.ext_get {x y : RegFile} (h : ∀ r, x.get r = y.get r) : x = y := by
  obtain ⟨a, b, c, d⟩ := x
  obtain ⟨a', b', c', d'⟩ := y
  have h0 := h .r0
  have h1 := h .r1
  have h2 := h .r2
  have h3 := h .r3
  simp only [RegFile.get] at h0 h1 h2 h3
  simp [h0, h1, h2, h3]

end Sys2Proof.Machine
end

