-- ==== Sys2Proof/Laws/Operands.lean ====
section
/-!
SUPPORT. What the operand checks answer (30_encoding.md R53 to R55).
-/

namespace Sys2Proof.Machine

@[simp] theorem Reg.ofWord?_index (r : Reg) : Reg.ofWord? r.index = some r := by
  cases r <;> rfl

/-- An index names a register exactly when it is that register's. -/
theorem Reg.ofWord?_eq_some {w : Int} {r : Reg} : Reg.ofWord? w = some r ↔ w = r.index := by
  constructor
  · intro h
    have := List.find?_some h
    simpa using (of_decide_eq_true this).symm
  · rintro rfl
    exact Reg.ofWord?_index r

/-- A word names no register exactly when it is outside 0..3. -/
theorem Reg.ofWord?_eq_none {w : Int} : Reg.ofWord? w = none ↔ w < 0 ∨ 3 < w := by
  constructor
  · intro h
    by_contra hc
    have hw : w = 0 ∨ w = 1 ∨ w = 2 ∨ w = 3 := by omega
    rcases hw with rfl | rfl | rfl | rfl <;> exact absurd h (by decide)
  · intro h
    cases hw : Reg.ofWord? w with
    | none => rfl
    | some r =>
      have hw := Reg.ofWord?_eq_some.mp hw
      cases r <;> simp only [Reg.index] at hw <;> omega

/-- Every word either names a register or is outside 0..3. -/
theorem Reg.word_cases (w : Int) : (∃ r : Reg, w = r.index) ∨ (w < 0 ∨ 3 < w) := by
  cases h : Reg.ofWord? w with
  | none => exact .inr (Reg.ofWord?_eq_none.mp h)
  | some r => exact .inl ⟨r, Reg.ofWord?_eq_some.mp h⟩

@[simp] theorem checkReg_index (k : BitVec 2) (r : Reg) : checkReg k r.index = .ok r := by
  simp [checkReg]

theorem checkReg_bad (k : BitVec 2) {w : Int} (h : w < 0 ∨ 3 < w) :
    checkReg k w = .error { cause := .regIndex, word := k, value := w } := by
  simp [checkReg, Reg.ofWord?_eq_none.mpr h]

theorem State.validAddr_iff (s : State) (a : Int) :
    s.validAddr a = true ↔ 0 ≤ a ∧ a < (s.params.memSize : Int) := by
  simp [State.validAddr]

@[simp] theorem State.validAddr_natCast (s : State) (a : Nat) :
    s.validAddr (a : Int) = decide (a < s.params.memSize) := by
  simp [State.validAddr]

theorem State.validAddr_bad {s : State} {a : Int} (h : a < 0 ∨ (s.params.memSize : Int) ≤ a) :
    s.validAddr a = false := by
  have : ¬ (0 ≤ a ∧ a < (s.params.memSize : Int)) := by omega
  simpa [State.validAddr] using this

/-- Every word either is a cell index or is outside the memory. -/
theorem State.addr_cases (s : State) (w : Int) :
    (∃ a : Nat, w = (a : Int) ∧ a < s.params.memSize) ∨ (w < 0 ∨ (s.params.memSize : Int) ≤ w) := by
  by_cases h : 0 ≤ w ∧ w < (s.params.memSize : Int)
  · exact .inl ⟨w.toNat, by omega, by omega⟩
  · exact .inr (by omega)

theorem State.checkDirect_cell {s : State} (k : BitVec 2) {a : Nat} (h : a < s.params.memSize) :
    s.checkDirect k (a : Int) = .ok a := by
  simp [State.checkDirect, h]

theorem State.checkDirect_bad {s : State} (k : BitVec 2) {w : Int} (h : w < 0 ∨ (s.params.memSize : Int) ≤ w) :
    s.checkDirect k w = .error { cause := .memDirect, word := k, value := w } := by
  simp [State.checkDirect, State.validAddr_bad h]

theorem State.checkIndirect_cell {s : State} (k : BitVec 2) {r : Reg} {a : Nat} (hr : s.x.get r = (a : Int))
    (h : a < s.params.memSize) : s.checkIndirect k r = .ok a := by
  simp [State.checkIndirect, hr, h]

theorem State.checkIndirect_bad {s : State} (k : BitVec 2) {r : Reg}
    (h : s.x.get r < 0 ∨ (s.params.memSize : Int) ≤ s.x.get r) :
    s.checkIndirect k r = .error { cause := .memIndirect, word := k, value := s.x.get r } := by
  simp [State.checkIndirect, State.validAddr_bad h]

end Sys2Proof.Machine
end

