-- ==== Sys2Proof/Laws/Exec.lean ====
section
/-!
SUPPORT. What an instruction can do, said once: what it stages when every check passes, and what it reports when one
fails.
-/

namespace Sys2Proof.Machine

/-- What the Execute arm of an instruction stages. -/
def stageOf (i : Instr) (s : State) : Except Report Staged :=
  match i with
  | .nop => .ok .nothing
  | .movRImm w1 w2 => stageMovRImm w1 w2
  | .movRR w1 w2 => stageMovRR w1 w2 s
  | .movRMem w1 w2 => stageMovRMem w1 w2 s
  | .movRInd w1 w2 => stageMovRInd w1 w2 s
  | .movMemR w1 w2 => stageMovMemR w1 w2 s
  | .movIndR w1 w2 => stageMovIndR w1 w2 s

/-- Every instruction ends by committing what it staged or by taking its fault. -/
theorem exec_eq_conclude (i : Instr) (s : State) : exec i s = s.conclude i.opcode.arity (stageOf i s) := by
  cases i <;> rfl

theorem stageMovRImm_ok (r : Reg) (v : Int) : stageMovRImm r.index v = .ok (.reg r v) := by
  simp only [stageMovRImm, checkReg_index]
  rfl

theorem stageMovRR_ok (r q : Reg) (s : State) : stageMovRR r.index q.index s = .ok (.reg r (s.x.get q)) := by
  simp only [stageMovRR, checkReg_index]
  rfl

theorem stageMovRMem_ok (r : Reg) {a : Nat} {s : State} (h : a < s.params.memSize) :
    stageMovRMem r.index a s = .ok (.reg r (s.cell a)) := by
  simp only [stageMovRMem, checkReg_index, State.checkDirect_cell 2 h]
  rfl

theorem stageMovRInd_ok (r : Reg) {q : Reg} {a : Nat} {s : State} (hq : s.x.get q = (a : Int))
    (h : a < s.params.memSize) : stageMovRInd r.index q.index s = .ok (.reg r (s.cell a)) := by
  simp only [stageMovRInd, checkReg_index]
  simp only [bind, Except.bind, State.checkIndirect_cell 2 hq h]
  rfl

theorem stageMovMemR_ok (q : Reg) {a : Nat} {s : State} (h : a < s.params.memSize) :
    stageMovMemR a q.index s = .ok (.cell a (s.x.get q)) := by
  simp only [stageMovMemR, checkReg_index, State.checkDirect_cell 1 h]
  rfl

theorem stageMovIndR_ok (q : Reg) {p : Reg} {a : Nat} {s : State} (hp : s.x.get p = (a : Int))
    (h : a < s.params.memSize) : stageMovIndR p.index q.index s = .ok (.cell a (s.x.get q)) := by
  simp only [stageMovIndR, checkReg_index]
  simp only [bind, Except.bind, State.checkIndirect_cell 1 hp h]
  rfl

/-- Everything a passing Execute arm can stage (40_dispatch.md R68). -/
theorem stageOf_ok_cases {i : Instr} {s : State} {w : Staged} (h : stageOf i s = .ok w) :
    (i = .nop ∧ w = .nothing) ∨
    (∃ r v, i = .movRImm r.index v ∧ w = .reg r v) ∨
    (∃ r q, i = .movRR r.index q.index ∧ w = .reg r (s.x.get q)) ∨
    (∃ r, ∃ a : Nat, a < s.params.memSize ∧ i = .movRMem r.index a ∧ w = .reg r (s.cell a)) ∨
    (∃ r q, ∃ a : Nat, a < s.params.memSize ∧ s.x.get q = a ∧ i = .movRInd r.index q.index ∧
      w = .reg r (s.cell a)) ∨
    (∃ q, ∃ a : Nat, a < s.params.memSize ∧ i = .movMemR a q.index ∧ w = .cell a (s.x.get q)) ∨
    (∃ p q, ∃ a : Nat, a < s.params.memSize ∧ s.x.get p = a ∧ i = .movIndR p.index q.index ∧
      w = .cell a (s.x.get q)) := by
  cases i with
  | nop => cases h; exact .inl ⟨rfl, rfl⟩
  | movRImm w1 w2 =>
    obtain ⟨r, rfl⟩ | h1 := Reg.word_cases w1
    · simp only [stageOf, stageMovRImm_ok, Except.ok.injEq] at h
      exact .inr (.inl ⟨r, w2, rfl, h.symm⟩)
    · simp only [stageOf, stageMovRImm, checkReg_bad 1 h1] at h
      cases h
  | movRR w1 w2 =>
    obtain ⟨r, rfl⟩ | h1 := Reg.word_cases w1
    · obtain ⟨q, rfl⟩ | h2 := Reg.word_cases w2
      · simp only [stageOf, stageMovRR_ok, Except.ok.injEq] at h
        exact .inr (.inr (.inl ⟨r, q, rfl, h.symm⟩))
      · simp only [stageOf, stageMovRR, checkReg_index, checkReg_bad 2 h2] at h
        cases h
    · simp only [stageOf, stageMovRR, checkReg_bad 1 h1] at h
      cases h
  | movRMem w1 w2 =>
    obtain ⟨r, rfl⟩ | h1 := Reg.word_cases w1
    · obtain ⟨a, rfl, ha⟩ | h2 := s.addr_cases w2
      · simp only [stageOf, stageMovRMem_ok r ha, Except.ok.injEq] at h
        exact .inr (.inr (.inr (.inl ⟨r, a, ha, rfl, h.symm⟩)))
      · simp only [stageOf, stageMovRMem, checkReg_index, State.checkDirect_bad 2 h2] at h
        cases h
    · simp only [stageOf, stageMovRMem, checkReg_bad 1 h1] at h
      cases h
  | movRInd w1 w2 =>
    obtain ⟨r, rfl⟩ | h1 := Reg.word_cases w1
    · obtain ⟨q, rfl⟩ | h2 := Reg.word_cases w2
      · obtain ⟨a, hq, ha⟩ | h3 := s.addr_cases (s.x.get q)
        · simp only [stageOf, stageMovRInd_ok r hq ha, Except.ok.injEq] at h
          exact .inr (.inr (.inr (.inr (.inl ⟨r, q, a, ha, hq, rfl, h.symm⟩))))
        · simp only [stageOf, stageMovRInd, checkReg_index, bind, Except.bind, State.checkIndirect_bad 2 h3] at h
          cases h
      · simp only [stageOf, stageMovRInd, checkReg_index, checkReg_bad 2 h2] at h
        cases h
    · simp only [stageOf, stageMovRInd, checkReg_bad 1 h1] at h
      cases h
  | movMemR w1 w2 =>
    obtain ⟨a, rfl, ha⟩ | h1 := s.addr_cases w1
    · obtain ⟨q, rfl⟩ | h2 := Reg.word_cases w2
      · simp only [stageOf, stageMovMemR_ok q ha, Except.ok.injEq] at h
        exact .inr (.inr (.inr (.inr (.inr (.inl ⟨q, a, ha, rfl, h.symm⟩)))))
      · simp only [stageOf, stageMovMemR, State.checkDirect_cell 1 ha, checkReg_bad 2 h2] at h
        cases h
    · simp only [stageOf, stageMovMemR, State.checkDirect_bad 1 h1] at h
      cases h
  | movIndR w1 w2 =>
    obtain ⟨p, rfl⟩ | h1 := Reg.word_cases w1
    · obtain ⟨a, hp, ha⟩ | h3 := s.addr_cases (s.x.get p)
      · obtain ⟨q, rfl⟩ | h2 := Reg.word_cases w2
        · simp only [stageOf, stageMovIndR_ok q hp ha, Except.ok.injEq] at h
          exact .inr (.inr (.inr (.inr (.inr (.inr ⟨p, q, a, ha, hp, rfl, h.symm⟩)))))
        · simp only [stageOf, stageMovIndR, checkReg_index, bind, Except.bind, State.checkIndirect_cell 1 hp ha,
            checkReg_bad 2 h2] at h
          cases h
      · simp only [stageOf, stageMovIndR, checkReg_index, bind, Except.bind, State.checkIndirect_bad 1 h3] at h
        cases h
    · simp only [stageOf, stageMovIndR, checkReg_bad 1 h1] at h
      cases h

/-- Everything a failing operand check can report: word 1 or 2, and as the value an operand word that is no register
index, an operand word that is no cell index, or a register's value that is no cell index (60_exceptions.md R87). -/
def OperandReport (i : Instr) (s : State) (r : Report) : Prop :=
  (r.word = 1 ∨ r.word = 2) ∧
  ((r.cause = .regIndex ∧ r.value ∈ i.operands ∧ (r.value < 0 ∨ 3 < r.value)) ∨
   (r.cause = .memDirect ∧ r.value ∈ i.operands ∧ (r.value < 0 ∨ (s.params.memSize : Int) ≤ r.value)) ∨
   (r.cause = .memIndirect ∧ (∃ q, r.value = s.x.get q) ∧ (r.value < 0 ∨ (s.params.memSize : Int) ≤ r.value)))

theorem checkReg_error {k : BitVec 2} {w : Int} {r : Report} (h : checkReg k w = .error r) :
    r = { cause := .regIndex, word := k, value := w } ∧ (w < 0 ∨ 3 < w) := by
  obtain ⟨q, rfl⟩ | hw := Reg.word_cases w
  · simp at h
  · rw [checkReg_bad k hw] at h
    exact ⟨(Except.error.inj h).symm, hw⟩

theorem State.checkDirect_error {s : State} {k : BitVec 2} {w : Int} {r : Report}
    (h : s.checkDirect k w = .error r) :
    r = { cause := .memDirect, word := k, value := w } ∧ (w < 0 ∨ (s.params.memSize : Int) ≤ w) := by
  obtain ⟨a, rfl, ha⟩ | hw := s.addr_cases w
  · simp [State.checkDirect_cell k ha] at h
  · rw [State.checkDirect_bad k hw] at h
    exact ⟨(Except.error.inj h).symm, hw⟩

theorem State.checkIndirect_error {s : State} {k : BitVec 2} {q : Reg} {r : Report}
    (h : s.checkIndirect k q = .error r) :
    r = { cause := .memIndirect, word := k, value := s.x.get q } ∧
      (s.x.get q < 0 ∨ (s.params.memSize : Int) ≤ s.x.get q) := by
  obtain ⟨a, hq, ha⟩ | hw := s.addr_cases (s.x.get q)
  · simp [State.checkIndirect_cell k hq ha] at h
  · rw [State.checkIndirect_bad k hw] at h
    exact ⟨(Except.error.inj h).symm, hw⟩

/-- A bind that ends in an error: the first part errs, or it answers and the second part errs. -/
theorem except_bind_error {ε α β : Type} {x : Except ε α} {f : α → Except ε β} {e : ε} (h : x >>= f = .error e) :
    x = .error e ∨ ∃ a, x = .ok a ∧ f a = .error e := by
  cases x with
  | error e' => exact .inl (by cases h; rfl)
  | ok a => exact .inr ⟨a, rfl, h⟩

theorem stageOf_error {i : Instr} {s : State} {r : Report} (h : stageOf i s = .error r) : OperandReport i s r := by
  cases i with
  | nop => cases h
  | movRImm w1 w2 =>
    obtain h | ⟨a, -, h⟩ := except_bind_error h
    · obtain ⟨rfl, hb⟩ := checkReg_error h
      exact ⟨.inl rfl, .inl ⟨rfl, by simp [Instr.operands], hb⟩⟩
    · cases h
  | movRR w1 w2 =>
    obtain h | ⟨a, -, h⟩ := except_bind_error h
    · obtain ⟨rfl, hb⟩ := checkReg_error h
      exact ⟨.inl rfl, .inl ⟨rfl, by simp [Instr.operands], hb⟩⟩
    · obtain h | ⟨b, -, h⟩ := except_bind_error h
      · obtain ⟨rfl, hb⟩ := checkReg_error h
        exact ⟨.inr rfl, .inl ⟨rfl, by simp [Instr.operands], hb⟩⟩
      · cases h
  | movRMem w1 w2 =>
    obtain h | ⟨a, -, h⟩ := except_bind_error h
    · obtain ⟨rfl, hb⟩ := checkReg_error h
      exact ⟨.inl rfl, .inl ⟨rfl, by simp [Instr.operands], hb⟩⟩
    · obtain h | ⟨b, -, h⟩ := except_bind_error h
      · obtain ⟨rfl, hb⟩ := State.checkDirect_error h
        exact ⟨.inr rfl, .inr (.inl ⟨rfl, by simp [Instr.operands], hb⟩)⟩
      · cases h
  | movRInd w1 w2 =>
    obtain h | ⟨a, -, h⟩ := except_bind_error h
    · obtain ⟨rfl, hb⟩ := checkReg_error h
      exact ⟨.inl rfl, .inl ⟨rfl, by simp [Instr.operands], hb⟩⟩
    · obtain h | ⟨b, -, h⟩ := except_bind_error h
      · obtain ⟨rfl, hb⟩ := checkReg_error h
        exact ⟨.inr rfl, .inl ⟨rfl, by simp [Instr.operands], hb⟩⟩
      · obtain h | ⟨c, -, h⟩ := except_bind_error h
        · obtain ⟨rfl, hb⟩ := State.checkIndirect_error h
          exact ⟨.inr rfl, .inr (.inr ⟨rfl, ⟨b, rfl⟩, hb⟩)⟩
        · cases h
  | movMemR w1 w2 =>
    obtain h | ⟨a, -, h⟩ := except_bind_error h
    · obtain ⟨rfl, hb⟩ := State.checkDirect_error h
      exact ⟨.inl rfl, .inr (.inl ⟨rfl, by simp [Instr.operands], hb⟩)⟩
    · obtain h | ⟨b, -, h⟩ := except_bind_error h
      · obtain ⟨rfl, hb⟩ := checkReg_error h
        exact ⟨.inr rfl, .inl ⟨rfl, by simp [Instr.operands], hb⟩⟩
      · cases h
  | movIndR w1 w2 =>
    obtain h | ⟨a, -, h⟩ := except_bind_error h
    · obtain ⟨rfl, hb⟩ := checkReg_error h
      exact ⟨.inl rfl, .inl ⟨rfl, by simp [Instr.operands], hb⟩⟩
    · obtain h | ⟨b, -, h⟩ := except_bind_error h
      · obtain ⟨rfl, hb⟩ := State.checkIndirect_error h
        exact ⟨.inl rfl, .inr (.inr ⟨rfl, ⟨a, rfl⟩, hb⟩)⟩
      · obtain h | ⟨c, -, h⟩ := except_bind_error h
        · obtain ⟨rfl, hb⟩ := checkReg_error h
          exact ⟨.inr rfl, .inl ⟨rfl, by simp [Instr.operands], hb⟩⟩
        · cases h

/-- Everything an instruction can do: commit what it staged, or take the fault of a failed operand check. -/
theorem exec_cases {i : Instr} {s t : State} (h : exec i s = .next t) :
    (∃ w, stageOf i s = .ok w ∧ t = s.commit i.opcode.arity w) ∨
    (∃ r, stageOf i s = .error r ∧ OperandReport i s r ∧ t = s.takeFault r) := by
  rw [exec_eq_conclude] at h
  cases hs : stageOf i s with
  | ok w =>
    rw [hs] at h
    exact .inl ⟨w, rfl, (Host.Outcome.next.inj h).symm⟩
  | error r =>
    rw [hs] at h
    exact .inr ⟨r, rfl, stageOf_error hs, (Host.Outcome.next.inj h).symm⟩

end Sys2Proof.Machine
end

