-- ==== Sys2Proof/Laws/Frame.lean ====
section
/-!
SUPPORT. Which register and which cell an instruction names: what `targetRegister` and `storeAddress` answer, and that
what an instruction stages is a write there or nothing.
-/

namespace Sys2Proof.Machine

@[simp] theorem targetRegister_movRImm (r : Reg) (w : Int) : targetRegister (.movRImm r.index w) = some r :=
  Reg.ofWord?_index r
@[simp] theorem targetRegister_movRR (r : Reg) (w : Int) : targetRegister (.movRR r.index w) = some r :=
  Reg.ofWord?_index r
@[simp] theorem targetRegister_movRMem (r : Reg) (w : Int) : targetRegister (.movRMem r.index w) = some r :=
  Reg.ofWord?_index r
@[simp] theorem targetRegister_movRInd (r : Reg) (w : Int) : targetRegister (.movRInd r.index w) = some r :=
  Reg.ofWord?_index r

/-- A direct store to a cell of the memory names that cell. -/
theorem storeAddress_movMemR {s : State} {a : Nat} (w : Int) (h : a < s.params.memSize) :
    storeAddress s (.movMemR a w) = some a := by
  rw [storeAddress, State.checkDirect_cell 1 h]
  rfl

/-- A store through a register that holds a cell index names that cell. -/
theorem storeAddress_movIndR {s : State} {p : Reg} {a : Nat} (w : Int) (hp : s.x.get p = (a : Int))
    (h : a < s.params.memSize) : storeAddress s (.movIndR p.index w) = some a := by
  simp only [storeAddress, checkReg_index, bind, Except.bind, State.checkIndirect_cell 1 hp h]
  rfl

/-- What a passing Execute arm stages is a write to the register or the cell the instruction names, or nothing. -/
theorem staged_names {i : Instr} {s : State} {w : Staged} (h : stageOf i s = .ok w) :
    w = .nothing ∨ (∃ r v, w = .reg r v ∧ targetRegister i = some r) ∨
      (∃ a v, w = .cell a v ∧ storeAddress s i = some a) := by
  obtain ⟨rfl, rfl⟩ | ⟨r, v, rfl, rfl⟩ | ⟨r, q, rfl, rfl⟩ | ⟨r, a, -, rfl, rfl⟩ | ⟨r, q, a, -, -, rfl, rfl⟩ |
    ⟨q, a, ha, rfl, rfl⟩ | ⟨p, q, a, ha, hp, rfl, rfl⟩ := stageOf_ok_cases h
  · exact .inl rfl
  · exact .inr (.inl ⟨r, _, rfl, by simp⟩)
  · exact .inr (.inl ⟨r, _, rfl, by simp⟩)
  · exact .inr (.inl ⟨r, _, rfl, by simp⟩)
  · exact .inr (.inl ⟨r, _, rfl, by simp⟩)
  · exact .inr (.inr ⟨a, _, rfl, storeAddress_movMemR _ ha⟩)
  · exact .inr (.inr ⟨a, _, rfl, storeAddress_movIndR _ hp ha⟩)

end Sys2Proof.Machine
end

