-- ==== Sys2Proof/Laws/PerInstr.lean ====
section
/-!
SUPPORT. The families of statements made per instruction (LAWS.json), one lemma per constructor of `Instr`.
-/

namespace Sys2Proof.Laws.EncodingShape

/-- The encoding is the opcode's word and then as many operand words as its arity (30_encoding.md R50). -/
def Statement (i : Instr) : Prop :=
  ∃ ws, encode i = i.opcode.value :: ws ∧ ws.length = i.opcode.arity

theorem nop : Statement .nop := ⟨[], rfl, rfl⟩
theorem movRImm (w1 w2 : Int) : Statement (.movRImm w1 w2) := ⟨[w1, w2], rfl, rfl⟩
theorem movRR (w1 w2 : Int) : Statement (.movRR w1 w2) := ⟨[w1, w2], rfl, rfl⟩
theorem movRMem (w1 w2 : Int) : Statement (.movRMem w1 w2) := ⟨[w1, w2], rfl, rfl⟩
theorem movRInd (w1 w2 : Int) : Statement (.movRInd w1 w2) := ⟨[w1, w2], rfl, rfl⟩
theorem movMemR (w1 w2 : Int) : Statement (.movMemR w1 w2) := ⟨[w1, w2], rfl, rfl⟩
theorem movIndR (w1 w2 : Int) : Statement (.movIndR w1 w2) := ⟨[w1, w2], rfl, rfl⟩

end Sys2Proof.Laws.EncodingShape
end

