-- ==== Sys2Proof/Laws/Step.lean ====
section
/-!
SUPPORT. What fetch reads, and what a Step can do, said once.
-/

namespace Sys2Proof.Machine

theorem State.readAhead_inside {s : State} {a : Nat} (n : Nat) (h : a < s.params.memSize) :
    s.readAhead (n + 1) a = s.cell a :: s.readAhead n (a + 1) := by
  simp [State.readAhead, h]

theorem State.readAhead_outside {s : State} {a : Nat} (n : Nat) (h : s.params.memSize ≤ a) :
    s.readAhead n a = [] := by
  cases n with
  | zero => rfl
  | succ n => simp [State.readAhead, Nat.not_lt.mpr h]

/-- Fetch reads cells only: states with the same cells and parameters read the same words. -/
theorem State.readAhead_congr {s t : State} (hc : ∀ a, t.cell a = s.cell a) (hp : t.params = s.params) (n a : Nat) :
    t.readAhead n a = s.readAhead n a := by
  induction n generalizing a with
  | zero => rfl
  | succ n ih => simp [State.readAhead, State.validAddr_of_params_eq hp, hc, ih]

@[simp] theorem State.readAhead_beginStep (s : State) (n a : Nat) : s.beginStep.readAhead n a = s.readAhead n a :=
  State.readAhead_congr (s := s) (t := s.beginStep) (fun _ => rfl) rfl n a

@[simp] theorem State.fetchWindow_beginStep (s : State) : s.beginStep.fetchWindow = s.fetchWindow :=
  s.readAhead_beginStep 3 s.ip

/-- Every word fetched is the word of a cell. -/
theorem State.mem_readAhead {s : State} {n a : Nat} {v : Int} (h : v ∈ s.readAhead n a) :
    ∃ b, b < s.params.memSize ∧ v = s.cell b := by
  induction n generalizing a with
  | zero => simp [State.readAhead] at h
  | succ n ih =>
    simp only [State.readAhead, State.validAddr_natCast, decide_eq_true_eq] at h
    split at h
    · next ha =>
      rcases List.mem_cons.mp h with rfl | h
      · exact ⟨a, ha, rfl⟩
      · exact ih h
    · simp at h

/-- How many words there are to fetch: as many as there are cells left. -/
theorem State.readAhead_length (s : State) (n a : Nat) :
    (s.readAhead n a).length = min n (s.params.memSize - a) := by
  induction n generalizing a with
  | zero => simp [State.readAhead]
  | succ n ih =>
    by_cases h : a < s.params.memSize
    · rw [State.readAhead_inside n h, List.length_cons, ih]
      omega
    · rw [State.readAhead_outside _ (by omega)]
      simp; omega

/-- A Step in FAULTED changes nothing. -/
theorem step_of_faulted {s : State} (h : s.phase = .faulted) : step s = .next s := by
  simp [step, h]

theorem step_of_decode_ok {s : State} {i : Instr} (hp : s.phase ≠ .faulted) (h : decode s.fetchWindow = .ok i) :
    step s = exec i s.beginStep := by
  simp [step, hp, h]

theorem step_of_decode_error {s : State} {e : DecodeError} (hp : s.phase ≠ .faulted)
    (h : decode s.fetchWindow = .error e) : step s = .next (s.beginStep.takeFault (reportOfDecode e)) := by
  simp [step, hp, h]

/-- Everything a Step can do. -/
theorem step_cases {s t : State} (h : step s = .next t) :
    (s.phase = .faulted ∧ t = s) ∨
    (s.phase ≠ .faulted ∧ ∃ i w, decode s.fetchWindow = .ok i ∧ stageOf i s.beginStep = .ok w ∧
      t = s.beginStep.commit i.opcode.arity w) ∨
    (s.phase ≠ .faulted ∧ ∃ i r, decode s.fetchWindow = .ok i ∧ OperandReport i s.beginStep r ∧
      t = s.beginStep.takeFault r) ∨
    (s.phase ≠ .faulted ∧ ∃ e, decode s.fetchWindow = .error e ∧
      t = s.beginStep.takeFault (reportOfDecode e)) := by
  by_cases hp : s.phase = .faulted
  · rw [step_of_faulted hp] at h
    exact .inl ⟨hp, (Host.Outcome.next.inj h).symm⟩
  · cases hd : decode s.fetchWindow with
    | ok i =>
      rw [step_of_decode_ok hp hd] at h
      obtain ⟨w, hw, rfl⟩ | ⟨r, -, hr, rfl⟩ := exec_cases h
      · exact .inr (.inl ⟨hp, i, w, rfl, hw, rfl⟩)
      · exact .inr (.inr (.inl ⟨hp, i, r, rfl, hr, rfl⟩))
    | error e =>
      rw [step_of_decode_error hp hd] at h
      exact .inr (.inr (.inr ⟨hp, e, rfl, (Host.Outcome.next.inj h).symm⟩))

/-- A committing instruction fits before the end of memory. -/
theorem ip_bound_of_decode_ok {s : State} {i : Instr} (h : decode s.fetchWindow = .ok i) :
    s.ip + 1 + i.opcode.arity ≤ s.params.memSize := by
  have hl : s.fetchWindow.length = min 3 (s.params.memSize - s.ip) := s.readAhead_length 3 s.ip
  obtain ⟨rfl, rest, hw⟩ | ⟨o, w1, w2, rest, -, rfl, hw⟩ := decode_cases h
  · rw [hw] at hl
    simp only [List.length_cons, Instr.opcode, Opcode.arity] at hl ⊢
    omega
  · rw [hw] at hl
    simp only [List.length_cons] at hl
    have ha : (o.build w1 w2).opcode.arity ≤ 2 := by cases o <;> simp [Opcode.build, Instr.opcode, Opcode.arity]
    omega

/-- Every word of a decoded instruction was fetched from a cell. -/
theorem operand_mem_of_decode_ok {ws : List Int} {i : Instr} (h : decode ws = .ok i) {v : Int}
    (hv : v ∈ i.operands) : v ∈ ws := by
  obtain ⟨rfl, -⟩ | ⟨o, w1, w2, rest, -, rfl, rfl⟩ := decode_cases h
  · simp [Instr.operands] at hv
  · cases o <;> simp [Opcode.build, Instr.operands] at hv ⊢ <;> tauto

end Sys2Proof.Machine
end

