-- ==== Sys2Proof/Laws/Requests.lean ====
section
/-!
SUPPORT. What a host request can do, said once.
-/

namespace Sys2Proof.Machine

/-- Everything a request can do (10_state.md R32). -/
theorem serve_cases {r : Request} {s t : State} {a : Reply} (h : serve r s = .next (t, a)) :
    (r = .reset ∧ t = s.resetAgain ∧ a = .accepted) ∨
    (∃ c v, r = .hostWrite c v ∧ s.acceptsWrite c v = true ∧ t = s.writeCell c.toNat v ∧ a = .accepted) ∨
    (∃ c v, r = .hostWrite c v ∧ s.acceptsWrite c v = false ∧ t = s ∧ a = .refused) ∨
    (r = .step ∧ step s = .next t ∧ a = t.stepReply) ∨
    (r = .observe ∧ t = s ∧ a = .observed s.view) := by
  cases r with
  | reset => cases h; exact .inl ⟨rfl, rfl, rfl⟩
  | hostWrite c v =>
    simp only [serve] at h
    split at h
    · next ha => cases h; exact .inr (.inl ⟨c, v, rfl, ha, rfl, rfl⟩)
    · next ha => cases h; exact .inr (.inr (.inl ⟨c, v, rfl, by simpa using ha, rfl, rfl⟩))
  | step =>
    simp only [serve] at h
    cases hs : step s with
    | next u => rw [hs] at h; cases h; exact .inr (.inr (.inr (.inl ⟨rfl, rfl, rfl⟩)))
    | fault f => rw [hs] at h; cases h
    | refused f => rw [hs] at h; cases h
  | observe => cases h; exact .inr (.inr (.inr (.inr ⟨rfl, rfl, rfl⟩)))

@[simp] theorem session_nil (s : State) : session [] s = .next (s, []) := rfl

theorem session_cons_of_next {r : Request} {rs : List Request} {s t : State} {a : Reply}
    (h : serve r s = .next (t, a)) {u : State} {as : List Reply} (hs : session rs t = .next (u, as)) :
    session (r :: rs) s = .next (u, a :: as) := by
  simp [session, h, hs]

/-- A session that answers served its first request and then the rest. -/
theorem session_cons_cases {r : Request} {rs : List Request} {s u : State} {l : List Reply}
    (h : session (r :: rs) s = .next (u, l)) :
    ∃ t a as, serve r s = .next (t, a) ∧ session rs t = .next (u, as) ∧ l = a :: as := by
  simp only [session] at h
  cases hr : serve r s with
  | next p =>
    obtain ⟨t, a⟩ := p
    rw [hr] at h
    cases hs : session rs t with
    | next q =>
      obtain ⟨u', as⟩ := q
      simp only [hs] at h
      cases h
      exact ⟨t, a, as, rfl, hs, rfl⟩
    | fault f => simp [hs] at h
    | refused f => simp [hs] at h
  | fault f => simp [hr] at h
  | refused f => simp [hr] at h

end Sys2Proof.Machine
end

