-- ==== Sys2Proof/Tests/Slice0.lean ====
section
/-!
SUPPORT. The model's own tests. Expected results are taken from spec/95_test_vectors.md (the vector is named) or worked
out from the rule named; `witness_<Name>` shows that the hypotheses of `Obligations.<Name>` are met together.
-/

namespace Sys2Proof.Tests

open Sys2Proof Sys2Proof.Machine

/-! ### Helpers -/

/-- A running state of the documented instance. -/
def st (ip : Nat) (x : RegFile) (m : Memory) : State :=
  { State.reset with ip := ip, x := x, mem := m, phase := .running }

/-- A loading state of a small instance: 8-bit words and 16 cells. -/
def small (x : RegFile) (m : Memory) : State :=
  { State.resetWith { wordBits := 8, memSize := 16, ipWidth := 5 } with x := x, mem := m }

def zeroRegs : RegFile := ⟨0, 0, 0, 0⟩

/-- An outcome is a next state that meets `p`. -/
def isNext (o : Host.Outcome State Fault Refusal) (p : State → Bool) : Bool :=
  match o with
  | .next t => p t
  | .fault _ => false
  | .refused _ => false

/-- The state a Step leaves. -/
def after (s : State) : State :=
  match step s with
  | .next t => t
  | .fault _ => s
  | .refused _ => s

/-- A Step of `s` faults with this cause code, WORD and VALUE, and changes no architectural state. -/
def faultsWith (s : State) (code : BitVec 4) (word : BitVec 2) (value : Int) : Bool :=
  isNext (step s) fun t =>
    decide (t = { s with phase := .faulted, fault := t.fault }) && decide (t.fault.causeCode = code) &&
      decide (t.fault.word = word) && decide (t.fault.value = value) && decide (t.fault.faultIp = s.ip)

/-! ### Well-formedness: one ill-formed term for each check -/

theorem test_wf_accepts : (Instr.movRImm 9 (-2147483648)).wf 32 = true := by decide
theorem test_wf_refuses_opcode_too_wide : (Instr.movMemR 0 0).wf 3 = false := by decide
theorem test_wf_refuses_word1 : (Instr.movRImm 2147483648 0).wf 32 = false := by decide
theorem test_wf_refuses_word2 : (Instr.movRImm 0 (-2147483649)).wf 32 = false := by decide
theorem test_params_refuse_no_width : ({ wordBits := 0, memSize := 1, ipWidth := 1 } : Params).wf = false := by decide
theorem test_params_refuse_no_cells : ({ wordBits := 8, memSize := 0, ipWidth := 1 } : Params).wf = false := by decide
theorem test_params_refuse_unaddressable : ({ wordBits := 8, memSize := 129, ipWidth := 9 } : Params).wf = false := by
  decide
theorem test_params_refuse_narrow_ip : ({ wordBits := 8, memSize := 128, ipWidth := 7 } : Params).wf = false := by decide
theorem test_memory_refuses_listed_zero : Memory.wf [(3, 0)] = false := by decide
theorem test_memory_refuses_unsorted : Memory.wf [(3, 1), (2, 1)] = false := by decide
theorem test_memory_refuses_repeat : Memory.wf [(3, 1), (3, 2)] = false := by decide

/-! ### Decoding: words written out from 30_encoding.md R56, and refusals by name -/

theorem test_decode_nop : decode [0] = .ok .nop := by decide
theorem test_decode_movRImm : decodeTableWord 96 0xFFFFFFFF_00000003_00000001 = some (.movRImm 3 (-1)) := by decide
theorem test_decode_movRR : decodeTableWord 96 0x00000001_00000002_00000002 = some (.movRR 2 1) := by decide
theorem test_decode_movRMem : decodeTableWord 96 0x000FFFFF_00000002_00000003 = some (.movRMem 2 1048575) := by decide
theorem test_decode_movRInd : decodeTableWord 96 0x00000001_00000003_00000004 = some (.movRInd 3 1) := by decide
theorem test_decode_movMemR : decodeTableWord 96 0x00000003_00000064_00000005 = some (.movMemR 100 3) := by decide
theorem test_decode_movIndR : decodeTableWord 96 0x00000001_00000002_00000006 = some (.movIndR 2 1) := by decide
theorem test_decode_short_row_has_zero_operands : decodeTableWord 32 6 = some (.movIndR 0 0) := by decide
theorem test_decode_refuses_seven : decode [7, 0, 0] = .error (.illegalOpcode 7) := by decide
theorem test_decode_refuses_minus_one : decode [-1, 0, 0] = .error (.illegalOpcode (-1)) := by decide
theorem test_decode_nothing : decode [] = .error .noOpcode := by decide
theorem test_decode_missing_word1 : decode [1] = .error (.missingOperand 1) := by decide
theorem test_decode_missing_word2 : decode [5, 7] = .error (.missingOperand 2) := by decide

/-! ### The instructions -/

-- N2: a NOP in the last cell commits.
theorem test_nop_last_cell : after (st 1048575 zeroRegs []) = st 1048576 zeroRegs [] := by decide
-- N4: the word after a NOP is not read.
theorem test_nop_ignores_next_word : after (st 5 zeroRegs [(6, 99)]) = st 6 zeroRegs [(6, 99)] := by decide
-- E1.
theorem test_movRImm_E1 : (after (st 0 zeroRegs [(0, 1), (1, 2), (2, 420)])).x = ⟨0, 0, 420, 0⟩ := by decide
-- I6.
theorem test_movRImm_I6 : faultsWith (st 0 zeroRegs [(0, 1), (1, -1), (2, 5)]) 0x8 1 (-1) = true := by decide
-- R1.
theorem test_movRR_R1 : (after (st 0 ⟨7, 0, 0, 0⟩ [(0, 2), (1, 3)])).x = ⟨7, 0, 0, 7⟩ := by decide
-- R4: both words are bad and word 1 is reported.
theorem test_movRR_R4 : faultsWith (st 0 zeroRegs [(0, 2), (1, 5), (2, 6)]) 0x8 1 5 = true := by decide
-- M2: it reads its own opcode word.
theorem test_movRMem_M2 : (after (st 0 zeroRegs [(0, 3), (1, 1)])).x = ⟨0, 3, 0, 0⟩ := by decide
-- M6: -1 does not wrap.
theorem test_movRMem_M6 : faultsWith (st 0 zeroRegs [(0, 3), (1, 2), (2, -1), (1048575, 8)]) 0x9 2 (-1) = true := by
  decide
-- X2: the target is also the address register.
theorem test_movRInd_X2 : (after (st 0 ⟨0, 5, 0, 0⟩ [(0, 4), (1, 1), (2, 1), (5, 8)])).x = ⟨0, 8, 0, 0⟩ := by decide
-- X5.
theorem test_movRInd_X5 : faultsWith (st 0 ⟨0, 0, 1048576, 0⟩ [(0, 4), (2, 2)]) 0xA 2 1048576 = true := by decide
-- S2: it overwrites its own word 2.
theorem test_movMemR_S2 :
    after (st 3 ⟨9, 0, 0, 0⟩ [(3, 5), (4, 5)]) = st 6 ⟨9, 0, 0, 0⟩ [(3, 5), (4, 5), (5, 9)] := by decide
-- S5: the address in word 1 comes before the register in word 2.
theorem test_movMemR_S5 : faultsWith (st 0 zeroRegs [(0, 5), (1, -1), (2, 4)]) 0x9 1 (-1) = true := by decide
-- T1.
theorem test_movIndR_T1 : (after (st 0 ⟨0, 0, 50, -9⟩ [(0, 6), (1, 2), (2, 3)])).cell 50 = -9 := by decide
-- T4: the indirect address of word 1 comes before the register of word 2.
theorem test_movIndR_T4 : faultsWith (st 0 ⟨-7, 0, 0, 0⟩ [(0, 6), (2, 9)]) 0xA 1 (-7) = true := by decide

/-! ### Step, the fault record and the host -/

-- N3.
theorem test_opcode_fetch_N3 : faultsWith (st 1048576 zeroRegs []) 0xC 0 0 = true := by decide
-- F5: word 2 would be past the last cell.
theorem test_operand_fetch_F5 : faultsWith (st 1048574 zeroRegs [(1048574, 1)]) 0xD 2 0 = true := by decide
-- F7: decode comes before operand fetch.
theorem test_decode_before_operand_fetch_F7 : faultsWith (st 1048575 zeroRegs [(1048575, 99)]) 0x4 0 99 = true := by
  decide
-- F9: operand fetch comes before operand checks.
theorem test_operand_fetch_before_checks_F9 :
    faultsWith (st 1048574 zeroRegs [(1048574, 5), (1048575, 7)]) 0xD 2 0 = true := by decide
-- H9.
theorem test_status_word_H9 : (after (st 0 zeroRegs [(0, 99)])).fault.statusWord 32 = 0x9#32 := by decide
-- H11: the status word and VALUE.
theorem test_status_word_H11 :
    let r := (after (st 0 ⟨-7, 0, 0, 0⟩ [(0, 6), (2, 9)])).fault
    r.statusWord 32 = 0x35#32 ∧ r.valueWord 32 = 0xFFFFFFF9#32 := by decide
-- H12: the status word and FAULT_IP.
theorem test_status_word_H12 :
    let r := (after (st 1048574 zeroRegs [(1048574, 1)])).fault
    r.statusWord 32 = 0x5B#32 ∧ r.faultIpWord 32 = 0x000FFFFE#32 := by decide
-- H5: the first Step leaves LOADING.
theorem test_first_step_H5 : (after State.reset).phase = .running ∧ (after State.reset).ip = 1 := by decide
-- H7: a Step in FAULTED changes nothing.
theorem test_faulted_H7 : after (after (st 0 zeroRegs [(0, 99)])) = after (st 0 zeroRegs [(0, 99)]) := by decide
-- H2.
theorem test_host_write_H2 : State.reset.acceptsWrite 1048575 5 = true := by decide
-- H3, H4, H6.
theorem test_host_write_refused :
    State.reset.acceptsWrite 1048576 5 = false ∧ State.reset.acceptsWrite (-1) 5 = false ∧
      (st 0 zeroRegs []).acceptsWrite 10 1 = false := by decide
-- P3's first two Steps: the image is `1, 0, 1, 5, 9, 0`, and cell 9 then holds 1.
theorem test_boot_and_store_P3 :
    (match session (bootRequests [1, 0, 1, 5, 9, 0] 2) State.reset with
      | .next (t, _) => decide (t.cell 9 = 1 ∧ t.ip = 6)
      | _ => false) = true := by decide
theorem test_withFetchWord_runs : (after (State.reset.withFetchWord 96 0x000001A4_00000002_00000001)).x = ⟨0, 0, 420, 0⟩ := by
  decide
-- 30_encoding.md R60.
theorem test_assembly_indirect_store : assembleText 32 "MOV [r2], r0 ; pointer".toList = some [6, 2, 0] := by decide
theorem test_assembly_immediate : assembleText 32 "MOV r0, -3".toList = some [1, 0, -3] := by decide
theorem test_assembly_direct_load : assembleText 32 "MOV r1, [200]".toList = some [3, 1, 200] := by decide
theorem test_assembly_refuses_other_registers : assembleText 32 "MOV r4, r0".toList = none := by decide
-- notes/assumptions/15.md: `-` is the only sign.
theorem test_assembly_refuses_plus_sign : assembleText 32 "MOV r0, +3".toList = none := by decide
theorem test_assembly_refuses_wide_number : assembleText 8 ".word 128".toList = none := by decide

/-! ### Witnesses: the hypotheses of each statement, met together -/

theorem witness_EncodeThenDecodeBitsGivesTheInstruction :
    (Instr.movRImm (-128) 127).wf 8 = true ∧ (Instr.movIndR 3 (-8)).wf 4 = true := by decide

theorem witness_DecodedWordsBeginWithTheEncoding :
    decode [6, 3, -8, 5] = .ok (.movIndR 3 (-8)) ∧ ∀ v ∈ [6, 3, -8, 5], Word.fits 4 v = true := by decide

theorem witness_OpcodeWordDecidesTheLength :
    decode (st 1048573 zeroRegs [(1048573, 6)]).fetchWindow = .ok (.movIndR 0 0) ∧
      decode (st 1048575 zeroRegs []).fetchWindow = .ok .nop := by decide

theorem witness_StepRunsTheDecodedInstruction :
    (st 0 zeroRegs [(0, 1), (1, 3)]).phase ≠ .faulted ∧
      decode (st 0 zeroRegs [(0, 1), (1, 3)]).fetchWindow = .ok (.movRImm 3 0) ∧
      (Instr.movRImm 3 0).wf 32 = true := by decide

theorem witness_StepRunsTheInstructionEncodedAtIp :
    let s := st 1048573 zeroRegs [(1048573, 1), (1048574, 3), (1048575, 7)]
    s.phase ≠ .faulted ∧ s.ip + (Instr.movRImm 3 7).length ≤ s.params.memSize ∧
      ∀ (k : Nat) (v : Int), (encode (.movRImm 3 7))[k]? = some v → s.cell (s.ip + k) = v := by
  refine ⟨by decide, by decide, fun k v h => ?_⟩
  match k, h with
  | 0, h => exact Option.some.inj h
  | 1, h => exact Option.some.inj h
  | 2, h => exact Option.some.inj h
  | k + 3, h => simp [encode, Instr.operands] at h

theorem witness_IllegalOpcodeWordFaults :
    let s := st 1048575 zeroRegs [(1048575, 7)]
    s.phase ≠ .faulted ∧ s.ip < s.params.memSize ∧ (s.cell s.ip < 0 ∨ 6 < s.cell s.ip) := by decide

theorem witness_FetchPastTheLastCellFaults :
    ((st 1048576 zeroRegs []).phase ≠ .faulted ∧ (st 1048576 zeroRegs []).params.memSize ≤ 1048576) ∧
    (let s := st 1048575 zeroRegs [(1048575, 6)]
     s.ip + 1 = s.params.memSize ∧ 1 ≤ s.cell s.ip ∧ s.cell s.ip ≤ 6) ∧
    (let s := st 1048574 zeroRegs [(1048574, 1)]
     s.ip + 2 = s.params.memSize ∧ 1 ≤ s.cell s.ip ∧ s.cell s.ip ≤ 6) := by decide

theorem witness_CommittedStepAdvancesIpByItsLength :
    (st 1048575 zeroRegs []).phase ≠ .faulted ∧
      step (st 1048575 zeroRegs []) = .next (st 1048576 zeroRegs []) ∧
      (st 1048576 zeroRegs []).phase ≠ .faulted :=
  ⟨by decide, rfl, by decide⟩

theorem witness_FaultingStepWritesNothing :
    (st 0 zeroRegs [(0, 99)]).phase ≠ .faulted ∧
      step (st 0 zeroRegs [(0, 99)]) = .next (after (st 0 zeroRegs [(0, 99)])) ∧
      (after (st 0 zeroRegs [(0, 99)])).phase = .faulted :=
  ⟨by decide, rfl, by decide⟩

theorem witness_IpNeverDecreasesAndStaysInside :
    step (st 1048575 zeroRegs []) = .next (after (st 1048575 zeroRegs [])) ∧
      (st 1048575 zeroRegs []).ip ≤ (st 1048575 zeroRegs []).params.memSize :=
  ⟨rfl, by decide⟩

theorem witness_StepLeavesRunningOrFaulted :
    step (after (st 0 zeroRegs [(0, 99)])) = .next (after (st 0 zeroRegs [(0, 99)])) ∧
      (after (st 0 zeroRegs [(0, 99)])).phase = .faulted :=
  ⟨rfl, by decide⟩

theorem witness_ZeroCellsRunAsNops :
    let s := st 1048574 zeroRegs [(1048573, 1)]
    s.phase ≠ .faulted ∧ s.ip + 2 ≤ s.params.memSize ∧ ∀ a, s.ip ≤ a → a < s.ip + 2 → s.cell a = 0 := by
  refine ⟨by decide, by decide, fun a h1 h2 => ?_⟩
  have h1 : 1048574 ≤ a := h1
  simp [State.cell, st, Memory.read, unlistedCell]
  omega

theorem witness_NopOnlyAdvancesIp :
    let s := st 1048575 zeroRegs []
    s.phase ≠ .faulted ∧ s.ip < s.params.memSize ∧ s.cell s.ip = 0 := by decide

theorem witness_MovRImmWritesTheImmediate :
    ((3 : Int) = Reg.r3.index ∧ (0 : Int) = Reg.r0.index) ∧ BadIndex 4 ∧ BadIndex (-1) := by
  simp [Reg.index, BadIndex]

theorem witness_MovRRCopiesTheSource :
    ((3 : Int) = Reg.r3.index ∧ (0 : Int) = Reg.r0.index) ∧ BadIndex 4 ∧ BadIndex (-1) ∧
      ((0 : Int) = Reg.r0.index ∧ BadIndex 4) := by
  simp [Reg.index, BadIndex]

theorem witness_MovRMemLoadsTheCell :
    let s := st 0 zeroRegs []
    ((3 : Int) = Reg.r3.index ∧ (1048575 : Int) = ((1048575 : Nat) : Int) ∧ 1048575 < s.params.memSize) ∧
      BadIndex 4 ∧ ((0 : Int) = Reg.r0.index ∧ BadAddress s 1048576 ∧ BadAddress s (-1)) := by
  refine ⟨⟨rfl, rfl, by decide⟩, .inr (by decide), rfl, .inr (by decide), .inl (by decide)⟩

theorem witness_MovRIndLoadsThroughTheRegister :
    let s := st 0 ⟨0, 1048575, 1048576, -1⟩ []
    ((3 : Int) = Reg.r3.index ∧ (1 : Int) = Reg.r1.index ∧ s.x.get .r1 = ((1048575 : Nat) : Int) ∧
      1048575 < s.params.memSize) ∧
    BadIndex 4 ∧ ((0 : Int) = Reg.r0.index ∧ BadIndex (-1)) ∧
    ((0 : Int) = Reg.r0.index ∧ (2 : Int) = Reg.r2.index ∧ BadAddress s (s.x.get .r2) ∧
      (3 : Int) = Reg.r3.index ∧ BadAddress s (s.x.get .r3)) := by
  refine ⟨⟨rfl, rfl, rfl, by decide⟩, .inr (by decide), ⟨rfl, .inl (by decide)⟩, rfl, rfl, .inr (by decide), rfl,
    .inl (by decide)⟩

theorem witness_MovMemRStoresTheRegister :
    let s := st 0 zeroRegs [(7, -2)]
    s.mem.wf = true ∧
    ((1048575 : Int) = ((1048575 : Nat) : Int) ∧ 1048575 < s.params.memSize ∧ (3 : Int) = Reg.r3.index) ∧
    (BadAddress s 1048576 ∧ BadAddress s (-1)) ∧
    ((0 : Int) = ((0 : Nat) : Int) ∧ 0 < s.params.memSize ∧ BadIndex 4) := by
  refine ⟨by decide, ⟨rfl, by decide, rfl⟩, ⟨.inr (by decide), .inl (by decide)⟩, rfl, by decide, .inr (by decide)⟩

theorem witness_MovIndRStoresThroughTheRegister :
    let s := st 0 ⟨0, 1048575, 1048576, -1⟩ [(7, -2)]
    s.mem.wf = true ∧
    ((1 : Int) = Reg.r1.index ∧ s.x.get .r1 = ((1048575 : Nat) : Int) ∧ 1048575 < s.params.memSize ∧
      (1 : Int) = Reg.r1.index) ∧
    BadIndex 4 ∧
    ((2 : Int) = Reg.r2.index ∧ BadAddress s (s.x.get .r2) ∧ (3 : Int) = Reg.r3.index ∧
      BadAddress s (s.x.get .r3)) ∧
    ((0 : Int) = Reg.r0.index ∧ s.x.get .r0 = ((0 : Nat) : Int) ∧ 0 < s.params.memSize ∧ BadIndex (-1)) := by
  refine ⟨by decide, ⟨rfl, rfl, by decide, rfl⟩, .inr (by decide), ⟨rfl, .inr (by decide), rfl, .inl (by decide)⟩,
    rfl, rfl, by decide, .inl (by decide)⟩

theorem witness_OnlyTheTargetOfAMoveChanges :
    ∃ t, exec (.movRMem 1 7) (st 0 zeroRegs [(7, -2)]) = .next t ∧ t.x.get .r1 ≠ zeroRegs.get .r1 :=
  ⟨_, rfl, by decide⟩

theorem witness_OnlyAStoreToTheCellChangesIt :
    let s := st 0 ⟨7, 0, 0, 0⟩ [(7, -2)]
    s.mem.wf = true ∧ ∃ t, exec (.movIndR 0 1) s = .next t ∧ t.cell 7 ≠ s.cell 7 :=
  ⟨by decide, _, rfl, by decide⟩

-- A store to the last cell, and a Step that decodes nothing.
theorem witness_StepWritesAtMostOneRegisterOrCell :
    (let s := st 3 ⟨9, 0, 0, 1048575⟩ [(3, 6), (4, 3)]
     s.mem.wf = true ∧ decode s.fetchWindow = .ok (.movIndR 3 0) ∧
       storeAddress s (.movIndR 3 0) = some 1048575 ∧
       step s = .next (st 6 ⟨9, 0, 0, 1048575⟩ [(3, 6), (4, 3), (1048575, 9)])) ∧
    (let s := st 1048576 zeroRegs []
     s.mem.wf = true ∧ decode s.fetchWindow = .error .noOpcode ∧ step s = .next (after s)) :=
  ⟨⟨by decide, by decide, by decide, rfl⟩, by decide, by decide, rfl⟩

theorem witness_RegisterInstructionsIgnoreMemory :
    (Instr.movRR 4 0 = .nop ∨ ∃ w1 w2, Instr.movRR 4 0 = .movRImm w1 w2 ∨ Instr.movRR 4 0 = .movRR w1 w2) :=
  .inr ⟨4, 0, .inr rfl⟩

theorem witness_InstructionsDoNotDependOnTheWordWidth :
    let s := st 0 ⟨7, 0, 0, 0⟩ []
    ({ wordBits := 64, memSize := 1048576, ipWidth := 40 } : Params).memSize = s.params.memSize ∧
      ∃ t, exec (.movIndR 0 0) s = .next t :=
  ⟨by decide, _, rfl⟩

/-- A renaming of the registers: r0 and r3 change places. -/
def swap03 : Reg → Reg
  | .r0 => .r3
  | .r1 => .r1
  | .r2 => .r2
  | .r3 => .r0

theorem witness_RegistersAreInterchangeable :
    Function.Injective swap03 ∧ Renamed swap03 (st 0 ⟨1, 2, 3, 4⟩ [(7, -2)]) (st 0 ⟨4, 2, 3, 1⟩ [(7, -2)]) ∧
      ∃ t, exec (.movRR 1 0) (st 0 ⟨1, 2, 3, 4⟩ [(7, -2)]) = .next t := by
  refine ⟨fun a b h => ?_, ⟨fun r => by cases r <;> rfl, rfl, rfl, rfl, rfl, rfl⟩, _, rfl⟩
  cases a <;> cases b <;> first | rfl | cases h

/-- The hypotheses of `Obligations.NextStepFetchesTheStoredWord` on a state and a source register, less the address. -/
def storesAhead (s : State) (q : Reg) : Bool :=
  decide (s.phase ≠ .faulted) && s.mem.wf && decide (s.ip + 3 < s.params.memSize) &&
    decide (s.cell (s.ip + 2) = q.index)

-- Both stores, and the stored words 0, 1, 6, 7 and -1 where clauses meet.
theorem witness_NextStepFetchesTheStoredWord :
    (let s := st 0 ⟨0, 7, 0, 0⟩ [(0, 5), (1, 3), (3, 1)]
     storesAhead s .r0 = true ∧ s.cell 0 = 5 ∧ s.cell 1 = ((0 + 3 : Nat) : Int) ∧ s.x.get .r0 = 0 ∧
       5 < s.params.memSize) ∧
    (let s := st 0 ⟨3, 1, 0, 0⟩ [(0, 6), (2, 1)]
     storesAhead s .r1 = true ∧ s.cell 0 = 6 ∧ s.cell 1 = Reg.r0.index ∧ s.x.get .r0 = ((0 + 3 : Nat) : Int) ∧
       s.x.get .r1 = 1 ∧ 5 < s.params.memSize) ∧
    (let s := st 1048572 ⟨6, 7, -1, 0⟩ [(1048572, 5), (1048573, 1048575)]
     storesAhead s .r0 = true ∧ s.cell 1048573 = ((1048572 + 3 : Nat) : Int) ∧ s.x.get .r0 = 6 ∧
       s.ip + 4 = s.params.memSize) ∧
    (let s := st 1048571 ⟨6, 7, -1, 0⟩ [(1048571, 5), (1048572, 1048574)]
     storesAhead s .r0 = true ∧ s.cell 1048572 = ((1048571 + 3 : Nat) : Int) ∧ s.x.get .r0 = 6 ∧
       s.ip + 5 = s.params.memSize) ∧
    (let s := st 1048572 ⟨6, 7, -1, 0⟩ [(1048572, 5), (1048573, 1048575), (1048574, 2)]
     storesAhead s .r2 = true ∧ s.cell 1048573 = ((1048572 + 3 : Nat) : Int) ∧ s.x.get .r2 < 0 ∧
       6 < s.x.get .r1) := by
  decide

theorem witness_ResetMeetsTheInvariant : ({ wordBits := 8, memSize := 128, ipWidth := 8 } : Params).wf = true := by decide

/-- A legal state of the small instance, with words at the ends of their range in a register and in the last cell. -/
theorem small_inv : (small ⟨0, 15, 127, -128⟩ [(0, 5), (1, 15), (2, 2), (15, -128)]).Inv where
  paramsLegal := by decide
  memCanonical := by decide
  memInside := by decide
  regsFit := fun r => by cases r <;> decide
  ipInside := by decide
  validIffFaulted := by decide
  recordLegal := by decide
  faultIpIsIp := by decide

theorem witness_StepKeepsTheInvariant :
    ∃ s t, State.Inv s ∧ step s = .next t ∧ t.cell 15 = 127 :=
  ⟨_, after (small ⟨0, 15, 127, -128⟩ [(0, 5), (1, 15), (2, 2), (15, -128)]), small_inv, rfl, by decide⟩

theorem witness_EverySessionKeepsTheInvariant :
    ∃ s t as, State.Inv s ∧ session [.hostWrite 15 (-1), .step, .observe, .reset] s = .next (t, as) :=
  ⟨_, _, _, small_inv, rfl⟩

theorem witness_NoRequestChangesTheParameters :
    ∃ t as, session [.hostWrite 0 99, .step, .step, .reset] (small zeroRegs []) = .next (t, as) ∧
      t.params.memSize = 16 :=
  ⟨_, _, rfl, by decide⟩

theorem witness_CanonicalMemoriesThatReadAlikeAreEqual :
    Memory.wf [(3, 7), (5, -1)] = true ∧ (∀ a, Memory.read [(3, 7), (5, -1)] a = Memory.read [(3, 7), (5, -1)] a) :=
  ⟨by decide, fun _ => rfl⟩

theorem witness_ResetForgetsEverythingBefore :
    ∃ t as, session ([.hostWrite 0 99, .step] ++ .reset :: [.step]) (small zeroRegs []) = .next (t, as) ∧ t.ip = 1 :=
  ⟨_, _, rfl, by decide⟩

theorem witness_HostWriteIsAcceptedOnlyInLoading :
    let s := small zeroRegs [(15, 3)]
    s.mem.wf = true ∧ (s.phase = .loading ∧ (0 : Int) ≤ 15 ∧ (15 : Int) < (s.params.memSize : Int) ∧
      Word.fits s.params.wordBits (-128) = true) ∧
    ((st 0 zeroRegs []).phase ≠ .loading ∧ (s.params.memSize : Int) ≤ 16 ∧ Word.fits s.params.wordBits 128 = false) := by
  decide

theorem witness_ObserveShowsTheStateAndChangesNothing :
    ∃ t as, session [.observe, .step, .observe] (small zeroRegs []) = .next (t, as) ∧ t.ip = 1 :=
  ⟨_, _, rfl, by decide⟩

theorem witness_OnlyResetLeavesFaulted :
    (after (small zeroRegs [(0, 99)])).phase = .faulted ∧ Request.reset ∉ [Request.step, .hostWrite 0 1, .observe] := by
  decide

theorem witness_BootLoadsTheImage :
    let s := small zeroRegs []
    [1, 0, -128].length ≤ s.params.memSize ∧ ∀ v ∈ [1, 0, -128], Word.fits s.params.wordBits v = true := by decide

theorem witness_StatusWordPacksTheRecord : 7 ≤ 7 := Nat.le_refl 7

-- A legal record of a faulted state, with the least word as its value and MEM_SIZE as its FAULT_IP.
theorem witness_ValueAndFaultIpReadAsWords :
    ({ wordBits := 8, memSize := 128, ipWidth := 8 } : Params).wf = true ∧
      ({ valid := true, kind := 2, detail := 2, word := 1, value := -128, faultIp := 128 } : FaultRecord).legal
        { wordBits := 8, memSize := 128, ipWidth := 8 } = true := by decide

theorem test_assemble_rows :
    (AsmLine.movIndR .r3 .r0).assemble 4 = some [6, 3, 0] ∧ (AsmLine.word (-8)).assemble 4 = some [-8] ∧
      (AsmLine.movRMem .r1 8).assemble 4 = none := by decide

end Sys2Proof.Tests
end

/-!
PROOFS. The encoding family (30_encoding.md R49, R51): what an opcode word selects, and which words of memory the
encoding of a fetched instruction is.
-/

namespace Sys2Proof

/-! ### The opcode word -/

/-- With two words after it, the value of an opcode selects that opcode, whatever follows. -/
@[simp] theorem decode_value_cons_cons (o : Opcode) (w1 w2 : Int) (rest : List Int) :
    decode (o.value :: w1 :: w2 :: rest) = .ok (o.build w1 w2) := by
  cases o <;> rfl

/-- The opcode is judged before any operand word is looked for (40_dispatch.md R69). -/
theorem decode_of_illegal {op : Int} (rest : List Int) (h : op < 0 ∨ 6 < op) :
    decode (op :: rest) = .error (.illegalOpcode op) := by
  simp [decode, Opcode.ofWord?_eq_none.mpr h]

theorem decode_eq_illegalOpcode_iff {op : Int} {rest : List Int} :
    decode (op :: rest) = .error (.illegalOpcode op) ↔ op < 0 ∨ 6 < op := by
  refine ⟨fun h => ?_, decode_of_illegal rest⟩
  obtain ⟨he, -⟩ | ⟨v, -, he, -, hv⟩ | ⟨v, he, -⟩ | ⟨v, w1, he, -⟩ := decode_error_cases h
  · cases he
  · cases he; exact hv
  · cases he
  · cases he

/-- Every word is the value of an opcode or outside 0..6. -/
theorem Opcode.word_cases (v : Int) : (∃ o : Opcode, v = o.value) ∨ (v < 0 ∨ 6 < v) := by
  cases h : Opcode.ofWord? v with
  | none => exact .inr (Opcode.ofWord?_eq_none.mp h)
  | some o => exact .inl ⟨o, Opcode.ofWord?_eq_some.mp h⟩

theorem Opcode.value_bounds (o : Opcode) : 0 ≤ o.value ∧ o.value ≤ 6 := by
  cases o <;> decide

/-! ### Length and words of an instruction -/

/-- The length is a function of the opcode word (30_encoding.md R49). -/
theorem Instr.length_eq_ite (i : Instr) : i.length = if i.opcode.value = 0 then 1 else 3 := by
  cases i <;> rfl

@[simp] theorem encode_getElem?_zero (i : Instr) : (encode i)[0]? = some i.opcode.value := rfl

theorem encode_build {o : Opcode} (w1 w2 : Int) (h : o ≠ .nop) :
    encode (o.build w1 w2) = [o.value, w1, w2] := by
  cases o with
  | nop => exact absurd rfl h
  | _ => rfl

/-- Words that decode begin with the encoding of the instruction decoded. -/
theorem encode_isPrefix_of_decode_ok {ws : List Int} {i : Instr} (h : decode ws = .ok i) : encode i <+: ws := by
  obtain ⟨rfl, rest, rfl⟩ | ⟨o, w1, w2, rest, hn, rfl, rfl⟩ := decode_cases h
  · exact ⟨rest, rfl⟩
  · exact ⟨rest, by rw [encode_build w1 w2 hn]; rfl⟩

end Sys2Proof

namespace Sys2Proof.Machine

/-- Fetch reads consecutive cells: word `k` of those read from `a` is the word of cell `a + k`. -/
theorem State.readAhead_getElem? {s : State} {n a k : Nat} {v : Int} (h : (s.readAhead n a)[k]? = some v) :
    a + k < s.params.memSize ∧ v = s.cell (a + k) := by
  induction n generalizing a k with
  | zero => simp [State.readAhead] at h
  | succ n ih =>
    by_cases ha : a < s.params.memSize
    · rw [State.readAhead_inside n ha] at h
      cases k with
      | zero => exact ⟨ha, (Option.some.inj h).symm⟩
      | succ k =>
        have hk := ih h
        rwa [Nat.add_right_comm, Nat.add_assoc] at hk
    · simp [State.readAhead_outside (n + 1) (Nat.not_lt.mp ha)] at h

/-- Word `k` of the encoding of the instruction fetched is the word of cell `ip + k`. -/
theorem encode_getElem?_of_decode_fetchWindow {s : State} {i : Instr} (h : decode s.fetchWindow = .ok i) {k : Nat}
    {v : Int} (hk : (encode i)[k]? = some v) : s.ip + k < s.params.memSize ∧ v = s.cell (s.ip + k) := by
  obtain ⟨rest, hrest⟩ := encode_isPrefix_of_decode_ok h
  obtain ⟨hlt, -⟩ := List.getElem?_eq_some_iff.mp hk
  have hw : s.fetchWindow[k]? = some v := by rw [← hrest, List.getElem?_append_left hlt, hk]
  exact State.readAhead_getElem? hw

/-- The opcode word of the instruction fetched stands in the cell at `ip`. -/
theorem cell_ip_of_decode_ok {s : State} {i : Instr} (h : decode s.fetchWindow = .ok i) :
    s.cell s.ip = i.opcode.value := by
  obtain ⟨-, hv⟩ := encode_getElem?_of_decode_fetchWindow h (encode_getElem?_zero i)
  exact hv.symm

/-! ### The statements -/

/-- Settles O3: a word is the value of one of the seven opcodes, and then selects it, or it is outside 0..6. -/
theorem opcodeWordSelectsByItsValue : Obligations.OpcodeWordSelectsByItsValue := by
  refine ⟨fun op w1 w2 rest => ?_, fun op rest => decode_eq_illegalOpcode_iff⟩
  obtain ⟨o, rfl⟩ | hop := Opcode.word_cases op
  · rw [decode_value_cons_cons]
    cases o <;> rfl
  · rw [decode_of_illegal _ hop]
    repeat rw [if_neg (by omega)]

/-- Settles O4: what was fetched begins with the encoding, and fetch reads consecutive cells, so every word of the
encoding stands where it should, the opcode word first. -/
theorem opcodeWordDecidesTheLength : Obligations.OpcodeWordDecidesTheLength := by
  intro s i h
  obtain ⟨hlo, hhi⟩ := i.opcode.value_bounds
  rw [cell_ip_of_decode_ok h]
  exact ⟨hlo, hhi, i.length_eq_ite, encode_length i, fun _ _ => encode_getElem?_of_decode_fetchWindow h⟩

end Sys2Proof.Machine

/-!
PROOFS. The dispatch family (40_dispatch.md R71, R72): the phase a Step leaves tells whether it committed or took a
fault, and so what it changed.
-/

namespace Sys2Proof

/-- NOP is the only instruction of one word (40_dispatch.md R66). -/
theorem Instr.length_eq_ite_nop (i : Instr) : i.length = if i = .nop then 1 else 3 := by
  cases i <;> rfl

end Sys2Proof

namespace Sys2Proof.Machine

/-! ### What the phase after a Step tells -/

/-- A Step that does not leave FAULTED committed what its instruction staged: every other end of a Step is FAULTED. -/
theorem step_committed {s t : State} (h : step s = .next t) (ht : t.phase ≠ .faulted) :
    ∃ i w, decode s.fetchWindow = .ok i ∧ stageOf i s.beginStep = .ok w ∧
      t = s.beginStep.commit i.opcode.arity w := by
  obtain ⟨hp, rfl⟩ | ⟨-, hcommit⟩ | ⟨-, i, r, -, -, rfl⟩ | ⟨-, e, -, rfl⟩ := step_cases h
  · exact absurd hp ht
  · exact hcommit
  · exact absurd (State.takeFault_phase _ r) ht
  · exact absurd (State.takeFault_phase _ (reportOfDecode e)) ht

/-- A Step that enters FAULTED took a fault: a commit leaves the phase RUNNING. -/
theorem step_entered_faulted {s t : State} (hp : s.phase ≠ .faulted) (h : step s = .next t)
    (ht : t.phase = .faulted) : ∃ r, t = s.beginStep.takeFault r := by
  obtain ⟨hf, -⟩ | ⟨-, i, w, -, -, rfl⟩ | ⟨-, i, r, -, -, rfl⟩ | ⟨-, e, -, rfl⟩ := step_cases h
  · exact absurd hf hp
  · rw [State.commit_phase, State.beginStep_phase] at ht
    cases ht
  · exact ⟨r, rfl⟩
  · exact ⟨reportOfDecode e, rfl⟩

/-- Taking a fault from within a Step keeps all that the Step began with (60_exceptions.md R90). -/
theorem tookFault_takeFault_beginStep (s : State) (r : Report) :
    TookFault s (s.beginStep.takeFault r) r.cause r.word r.value where
  registers _ := rfl
  memory _ := rfl
  ip := rfl
  params := rfl
  phase := rfl
  record := rfl

/-! ### The statements -/

/-- Settles O10: the Step committed, so it moved `ip` by the length of the instruction decoded, whose words were all
fetched from cells. -/
theorem committedStepAdvancesIpByItsLength : Obligations.CommittedStepAdvancesIpByItsLength := by
  intro s t _ h ht
  obtain ⟨i, w, hd, -, rfl⟩ := step_committed h ht
  have hip : (s.beginStep.commit i.opcode.arity w).ip = s.ip + 1 + i.opcode.arity := State.commit_ip _ _ _
  have hlen : (s.beginStep.commit i.opcode.arity w).ip = s.ip + i.length := hip.trans (Nat.add_assoc _ _ _)
  exact ⟨hip ▸ ip_bound_of_decode_ok hd, i, hd, hip, i.length_eq_ite_nop ▸ hlen⟩

/-- Settles O11: the Step took a fault, whichever check failed, and taking a fault latches its report and no more. -/
theorem faultingStepWritesNothing : Obligations.FaultingStepWritesNothing := by
  intro s t hp h ht
  obtain ⟨r, rfl⟩ := step_entered_faulted hp h ht
  exact ⟨r.cause, r.word, r.value, tookFault_takeFault_beginStep s r⟩

end Sys2Proof.Machine

/-!
PROOFS. The NOP family (41_nop.md R78): the word 0 alone is a NOP, and a NOP commits with nothing staged.
-/

namespace Sys2Proof

/-- NOP needs no operand word, so the word 0 decodes whatever follows it, or nothing (40_dispatch.md R66). -/
@[simp] theorem decode_zero_cons (rest : List Int) : decode (0 :: rest) = .ok .nop := rfl

end Sys2Proof

namespace Sys2Proof.Machine

/-- A commit with nothing staged moves `ip` and changes nothing else (40_dispatch.md R72). -/
theorem wroteNothing_commit_nothing (s : State) (n : Nat) :
    WroteNothing s (s.commit n .nothing) (s.ip + 1 + n) where
  registers _ := rfl
  memory _ := rfl
  ip := s.commit_ip n .nothing
  phase := s.commit_phase n .nothing
  record := s.commit_fault n .nothing
  params := s.commit_params n .nothing

/-- NOP has no check to fail and nothing to stage, so it commits. -/
theorem exec_nop (s : State) : exec .nop s = .next (s.commit Opcode.nop.arity .nothing) := by
  rw [exec_eq_conclude]
  exact s.conclude_ok _ _

/-- A NOP commits from every state, changing only `ip`, by 1. -/
theorem exec_nop_wroteNothing (s : State) : ∃ t, exec .nop s = .next t ∧ WroteNothing s t (s.ip + 1) :=
  ⟨_, exec_nop s, wroteNothing_commit_nothing s Opcode.nop.arity⟩

/-- A cell that holds 0 is fetched as a NOP, the last cell too: fetch reads the opcode word first. -/
theorem decode_fetchWindow_of_cell_zero {s : State} (hip : s.ip < s.params.memSize) (h0 : s.cell s.ip = 0) :
    decode s.fetchWindow = .ok .nop := by
  rw [State.fetchWindow, State.readAhead_inside 2 hip, h0, decode_zero_cons]

/-! ### The statement -/

/-- Settles O18: a Step at a cell that holds 0 fetches a NOP and executes it in the phase RUNNING, and a NOP commits
with nothing staged. -/
theorem nopOnlyAdvancesIp : Obligations.NopOnlyAdvancesIp := by
  refine ⟨decode_zero_cons, exec_nop_wroteNothing, fun s hp hip h0 => ?_⟩
  rw [step_of_decode_ok hp (decode_fetchWindow_of_cell_zero hip h0)]
  exact exec_nop_wroteNothing s.beginStep

end Sys2Proof.Machine

/-!
PROOFS. The register-move family (42_mov_register.md R79): what a commit of a staged register write and the fault of a
failed check leave behind, and which of the two ends a MOV reg, imm.
-/

namespace Sys2Proof.Machine

/-! ### The two ends of an instruction -/

/-- An instruction whose checks all pass commits what it staged (40_dispatch.md R70). -/
theorem exec_of_stageOf_ok {i : Instr} {s : State} {w : Staged} (h : stageOf i s = .ok w) :
    exec i s = .next (s.commit i.opcode.arity w) := by
  rw [exec_eq_conclude, h, State.conclude_ok]

/-- An instruction with a failed check takes the fault that check reports (40_dispatch.md R71). -/
theorem exec_of_stageOf_error {i : Instr} {s : State} {r : Report} (h : stageOf i s = .error r) :
    exec i s = .next (s.takeFault r) := by
  rw [exec_eq_conclude, h, State.conclude_error]

/-- A commit of a staged register write changes that register and `ip`, and nothing else (40_dispatch.md R70, R72). -/
theorem wroteRegister_commit_reg (s : State) (n : Nat) (r : Reg) (v : Int) :
    WroteRegister s (s.commit n (.reg r v)) r v (s.ip + 1 + n) where
  target := by rw [State.commit_reg_x, RegFile.get_set, if_pos rfl]
  others q hq := by rw [State.commit_reg_x, RegFile.get_set, if_neg hq]
  memory _ := rfl
  ip := s.commit_ip n (.reg r v)
  phase := s.commit_phase n (.reg r v)
  record := s.commit_fault n (.reg r v)
  params := s.commit_params n (.reg r v)

/-- Taking a fault latches its report and changes no architectural state (60_exceptions.md R90). -/
theorem tookFault_takeFault (s : State) (r : Report) :
    TookFault s (s.takeFault r) r.cause r.word r.value where
  registers _ := rfl
  memory _ := rfl
  ip := rfl
  params := rfl
  phase := rfl
  record := rfl

/-! ### MOV reg, imm -/

/-- A MOV reg, imm checks its target word alone, so a bad one is the report (30_encoding.md R53). -/
theorem stageMovRImm_bad {w1 : Int} (w2 : Int) (h : BadIndex w1) :
    stageMovRImm w1 w2 = .error { cause := .regIndex, word := 1, value := w1 } := by
  rw [stageMovRImm, checkReg_bad 1 h]
  rfl

/-- A MOV to a register writes the immediate there, from every state and for every immediate. -/
theorem exec_movRImm_wroteRegister (s : State) (r : Reg) (v : Int) :
    ∃ t, exec (.movRImm r.index v) s = .next t ∧ WroteRegister s t r v (s.ip + 3) :=
  ⟨_, exec_of_stageOf_ok (stageMovRImm_ok r v), wroteRegister_commit_reg s Opcode.movRImm.arity r v⟩

/-- A MOV to a word that names no register faults on it, whatever the immediate. -/
theorem exec_movRImm_tookFault (s : State) {w1 : Int} (w2 : Int) (h : BadIndex w1) :
    ∃ t, exec (.movRImm w1 w2) s = .next t ∧ TookFault s t .regIndex 1 w1 :=
  ⟨_, exec_of_stageOf_error (stageMovRImm_bad w2 h), tookFault_takeFault s _⟩

/-! ### The statement -/

/-- Settles O19: the word 1 selects the opcode, and its one check, on the target word, decides between the commit of the
immediate and the fault. -/
theorem movRImmWritesTheImmediate : Obligations.MovRImmWritesTheImmediate := by
  intro s w1 w2
  refine ⟨decode_value_cons_cons .movRImm w1 w2 [], ?_, exec_movRImm_tookFault s w2⟩
  rintro r rfl
  exact exec_movRImm_wroteRegister s r w2

end Sys2Proof.Machine

/-!
PROOFS. The round trip of the encoding (30_encoding.md R49, R50, R56): words packed into bits and cut again are the same
words, and what begins with an encoding decodes to its instruction.
-/

namespace Sys2Proof

/-! ### Words and bits -/

theorem bitsOfWords_lt (W : Nat) (vs : List Int) : bitsOfWords W vs < 2 ^ (W * vs.length) := by
  induction vs with
  | nil => simp [bitsOfWords]
  | cons v vs ih =>
    have hv := bitsOfWord_lt W v
    calc bitsOfWord W v + 2 ^ W * bitsOfWords W vs
        < 2 ^ W * (bitsOfWords W vs + 1) := by rw [Nat.mul_succ]; omega
      _ ≤ 2 ^ W * 2 ^ (W * vs.length) := Nat.mul_le_mul_left _ ih
      _ = 2 ^ (W * (v :: vs).length) := by rw [← Nat.pow_add, List.length_cons, Nat.mul_succ, Nat.add_comm]

/-- Packed words, cut again with `k` words more than were packed, are the words and then the bits above them, all 0. -/
theorem wordsOfBits_bitsOfWords {W : Nat} (hW : 0 < W) {vs : List Int} (h : ∀ v ∈ vs, Word.fits W v = true) (k : Nat) :
    wordsOfBits W (vs.length + k) (bitsOfWords W vs) = vs ++ wordsOfBits W k 0 := by
  induction vs with
  | nil => simp [bitsOfWords]
  | cons v vs ih =>
    have hdiv : (bitsOfWord W v + 2 ^ W * bitsOfWords W vs) / 2 ^ W = bitsOfWords W vs := by
      rw [Nat.add_mul_div_left _ _ (Nat.two_pow_pos W), Nat.div_eq_of_lt (bitsOfWord_lt W v), Nat.zero_add]
    rw [List.length_cons, Nat.add_right_comm, bitsOfWords, wordsOfBits, wordOfBits_add_mul,
      wordOfBits_bitsOfWord (h v (by simp)) hW, hdiv, ih fun u hu => h u (by simp [hu]), List.cons_append]

/-! ### Instructions and their words -/

/-- What begins with the encoding of an instruction decodes to it, whatever follows (30_encoding.md R49). -/
@[simp] theorem decode_encode_append (i : Instr) (rest : List Int) : decode (encode i ++ rest) = .ok i := by
  cases i <;> rfl

@[simp] theorem decode_encode (i : Instr) : decode (encode i) = .ok i := by
  simpa using decode_encode_append i []

theorem Instr.wf_iff {W : Nat} {i : Instr} : i.wf W = true ↔ ∀ v ∈ encode i, Word.fits W v = true :=
  List.all_eq_true

theorem Instr.length_le (i : Instr) : i.length ≤ 3 := by
  rw [Instr.length_eq_ite]
  split <;> decide

/-- Where words have no bits, the opcode word 0 is the only one. -/
theorem Instr.eq_nop_of_wf_zero {i : Instr} (h : i.wf 0 = true) : i = .nop := by
  have hop : Word.fits 0 i.opcode.value = true := Instr.wf_iff.mp h _ (by simp [encode])
  cases i with
  | nop => rfl
  | _ => simp [Instr.opcode, Opcode.value, Word.fits] at hop

/-! ### The statements -/

/-- Settles O1: the bits of the encoding, cut into three words, begin with the encoding again, and the words after it
are not looked at. Words of no bits hold the NOP alone. -/
theorem encodeThenDecodeBitsGivesTheInstruction : Obligations.EncodeThenDecodeBitsGivesTheInstruction := by
  intro W i h
  obtain rfl | hW := Nat.eq_zero_or_pos W
  · obtain rfl := Instr.eq_nop_of_wf_zero h
    rfl
  · have hlt : encodeBits W i < 2 ^ (W * i.length) := encode_length i ▸ bitsOfWords_lt W (encode i)
    have hlen : 3 = (encode i).length + (3 - i.length) := by
      have := i.length_le
      rw [encode_length]
      omega
    rw [decodeBits, Nat.mod_eq_of_lt hlt, hlen, encodeBits, wordsOfBits_bitsOfWords hW (Instr.wf_iff.mp h),
      decode_encode_append]
    rfl

/-- Settles O2: the encoding stands at the head of the words decoded, so its words are among them. -/
theorem decodedWordsBeginWithTheEncoding : Obligations.DecodedWordsBeginWithTheEncoding := by
  intro ws i h
  have hp := encode_isPrefix_of_decode_ok h
  refine ⟨encode_length i ▸ List.prefix_iff_eq_take.mp hp, fun W hfit => ?_⟩
  exact Instr.wf_iff.mpr fun v hv => hfit v (hp.subset hv)

/-- Settles O5: each number is cut into its words and decoded. -/
theorem writtenOutWordsDecode : Obligations.WrittenOutWordsDecode := by
  unfold Obligations.WrittenOutWordsDecode
  decide

end Sys2Proof

/-!
PROOFS. The step family (40_dispatch.md §1 to §5): what is fetched where the words of an instruction stand, what a
failed fetch or decode leaves, and what Steps do to `ip` and the phase.
-/

namespace Sys2Proof

/-! ### What fails to decode -/

theorem Opcode.arity_eq_two {o : Opcode} (h : o ≠ .nop) : o.arity = 2 := by
  cases o with
  | nop => exact absurd rfl h
  | _ => rfl

/-- The words 1 to 6 select the opcodes that have operands (30_encoding.md R56). -/
theorem Opcode.exists_value_eq {v : Int} (h1 : 1 ≤ v) (h6 : v ≤ 6) : ∃ o : Opcode, o ≠ .nop ∧ v = o.value := by
  obtain ⟨o, rfl⟩ | hv := Opcode.word_cases v
  · exact ⟨o, fun ho => by subst ho; exact absurd h1 (by decide), rfl⟩
  · omega

theorem decode_missing_first {v : Int} (h1 : 1 ≤ v) (h6 : v ≤ 6) : decode [v] = .error (.missingOperand 1) := by
  obtain ⟨o, ho, rfl⟩ := Opcode.exists_value_eq h1 h6
  simp [decode, Opcode.arity_eq_two ho]

theorem decode_missing_second {v : Int} (w1 : Int) (h1 : 1 ≤ v) (h6 : v ≤ 6) :
    decode [v, w1] = .error (.missingOperand 2) := by
  obtain ⟨o, ho, rfl⟩ := Opcode.exists_value_eq h1 h6
  simp [decode, Opcode.arity_eq_two ho]

end Sys2Proof

namespace Sys2Proof.Machine

/-! ### What is fetched -/

/-- Words that stand in consecutive cells are read in order. -/
theorem State.isPrefix_readAhead {s : State} {vs : List Int} {n a : Nat} (hn : vs.length ≤ n)
    (hin : a + vs.length ≤ s.params.memSize)
    (h : ∀ (k : Nat) (v : Int), vs[k]? = some v → s.cell (a + k) = v) : vs <+: s.readAhead n a := by
  induction vs generalizing n a with
  | nil => exact List.nil_prefix
  | cons v vs ih =>
    obtain ⟨n, rfl⟩ : ∃ m, n = m + 1 := ⟨n - 1, by rw [List.length_cons] at hn; omega⟩
    rw [List.length_cons] at hn hin
    have hv : s.cell a = v := h 0 v rfl
    rw [State.readAhead_inside n (by omega), hv]
    refine List.cons_prefix_cons.mpr ⟨rfl, ih (by omega) (by omega) fun k u hk => ?_⟩
    rw [Nat.add_assoc, Nat.add_comm 1 k]
    exact h (k + 1) u hk

/-- Where the words of an instruction stand from `ip`, that instruction is fetched. -/
theorem decode_fetchWindow_of_encoded {s : State} {i : Instr} (hin : s.ip + i.length ≤ s.params.memSize)
    (h : ∀ (k : Nat) (v : Int), (encode i)[k]? = some v → s.cell (s.ip + k) = v) :
    decode s.fetchWindow = .ok i := by
  obtain ⟨rest, hrest⟩ := State.isPrefix_readAhead (n := 3) (encode_length i ▸ i.length_le)
    (encode_length i ▸ hin) h
  rw [State.fetchWindow, ← hrest, decode_encode_append]

/-- With no cell at `ip` nothing is fetched. -/
theorem State.fetchWindow_past_end {s : State} (h : s.params.memSize ≤ s.ip) : s.fetchWindow = [] :=
  State.readAhead_outside 3 h

/-- From the last cell one word is fetched. -/
theorem State.fetchWindow_last {s : State} (h : s.ip + 1 = s.params.memSize) : s.fetchWindow = [s.cell s.ip] := by
  rw [State.fetchWindow, State.readAhead_inside 2 (by omega), State.readAhead_outside 2 (by omega)]

/-- From the last cell but one two words are fetched. -/
theorem State.fetchWindow_last_two {s : State} (h : s.ip + 2 = s.params.memSize) :
    s.fetchWindow = [s.cell s.ip, s.cell (s.ip + 1)] := by
  rw [State.fetchWindow, State.readAhead_inside 2 (by omega), State.readAhead_inside 1 (by omega),
    State.readAhead_outside 1 (by omega)]

/-- From any cell before those, three words are fetched. -/
theorem State.fetchWindow_inside {s : State} (h : s.ip + 2 < s.params.memSize) :
    s.fetchWindow = [s.cell s.ip, s.cell (s.ip + 1), s.cell (s.ip + 2)] := by
  rw [State.fetchWindow, State.readAhead_inside 2 (by omega), State.readAhead_inside 1 (by omega),
    State.readAhead_inside 0 h]
  rfl

/-! ### Failed fetches and decodes -/

/-- A Step whose fetch or decode fails takes the fault of that failure and changes nothing (60_exceptions.md R90). -/
theorem step_decode_error_tookFault {s : State} {e : DecodeError} (hp : s.phase ≠ .faulted)
    (h : decode s.fetchWindow = .error e) :
    ∃ t, step s = .next t ∧
      TookFault s t (reportOfDecode e).cause (reportOfDecode e).word (reportOfDecode e).value :=
  ⟨_, step_of_decode_error hp h, tookFault_takeFault_beginStep s _⟩

/-- A fault taken leaves its own codes in the record (60_exceptions.md R89). -/
theorem TookFault.kind_detail {s t : State} {f : Fault} {k : BitVec 2} {v : Int} (h : TookFault s t f k v) :
    t.fault.kind = f.kind ∧ t.fault.detail = f.detail := by
  rw [h.record]
  exact ⟨rfl, rfl⟩

theorem step_illegal_opcode {s : State} (hp : s.phase ≠ .faulted) (hip : s.ip < s.params.memSize)
    (hop : s.cell s.ip < 0 ∨ 6 < s.cell s.ip) :
    ∃ t, step s = .next t ∧ TookFault s t .decodeFailure 0 (s.cell s.ip) :=
  step_decode_error_tookFault (e := .illegalOpcode (s.cell s.ip)) hp <| by
    rw [State.fetchWindow, State.readAhead_inside 2 hip, decode_of_illegal _ hop]

theorem step_no_opcode {s : State} (hp : s.phase ≠ .faulted) (hip : s.params.memSize ≤ s.ip) :
    ∃ t, step s = .next t ∧ TookFault s t .opcodeFetch 0 0 :=
  step_decode_error_tookFault (e := .noOpcode) hp <| by rw [State.fetchWindow_past_end hip]; rfl

theorem step_missing_first {s : State} (hp : s.phase ≠ .faulted) (hip : s.ip + 1 = s.params.memSize)
    (h1 : 1 ≤ s.cell s.ip) (h6 : s.cell s.ip ≤ 6) :
    ∃ t, step s = .next t ∧ TookFault s t .operandFetch 1 0 :=
  step_decode_error_tookFault (e := .missingOperand 1) hp <| by
    rw [State.fetchWindow_last hip, decode_missing_first h1 h6]

theorem step_missing_second {s : State} (hp : s.phase ≠ .faulted) (hip : s.ip + 2 = s.params.memSize)
    (h1 : 1 ≤ s.cell s.ip) (h6 : s.cell s.ip ≤ 6) :
    ∃ t, step s = .next t ∧ TookFault s t .operandFetch 2 0 :=
  step_decode_error_tookFault (e := .missingOperand 2) hp <| by
    rw [State.fetchWindow_last_two hip, decode_missing_second _ h1 h6]

/-! ### Steps and runs -/

/-- Every instruction answers a next state, a fault too (60_exceptions.md R90). -/
theorem exec_total (i : Instr) (s : State) : ∃ t, exec i s = .next t := by
  cases h : stageOf i s with
  | ok w => exact ⟨_, exec_of_stageOf_ok h⟩
  | error r => exact ⟨_, exec_of_stageOf_error h⟩

theorem step_total (s : State) : ∃ t, step s = .next t := by
  by_cases hp : s.phase = .faulted
  · exact ⟨s, step_of_faulted hp⟩
  · cases hd : decode s.fetchWindow with
    | ok i => exact step_of_decode_ok hp hd ▸ exec_total i s.beginStep
    | error e => exact ⟨_, step_of_decode_error hp hd⟩

/-- A Step that commits moves `ip` forward, and no further than the end of memory (40_dispatch.md R72). -/
theorem step_committed_ip {s t : State} (h : step s = .next t) (ht : t.phase ≠ .faulted) :
    s.ip < t.ip ∧ t.ip ≤ s.params.memSize ∧ t.params = s.params := by
  obtain ⟨i, w, hd, -, rfl⟩ := step_committed h ht
  have hbound := ip_bound_of_decode_ok hd
  simp only [State.commit_ip, State.commit_params, State.beginStep_ip, State.beginStep_params, and_true]
  omega

/-- A Step that leaves FAULTED leaves `ip` in place (40_dispatch.md R71). -/
theorem step_faulted_ip {s t : State} (h : step s = .next t) (ht : t.phase = .faulted) : t.ip = s.ip := by
  by_cases hp : s.phase = .faulted
  · rw [step_of_faulted hp] at h
    cases h
    rfl
  · obtain ⟨r, rfl⟩ := step_entered_faulted hp h ht
    rfl

/-- A run in FAULTED changes nothing (40_dispatch.md R63). -/
theorem run_of_faulted {s : State} (h : s.phase = .faulted) (k : Nat) :
    Host.Core.run Sys2Proof.core k s = .next s := by
  induction k with
  | zero => rfl
  | succ k ih => rw [run_succ_of_next k (step_of_faulted h), ih]

/-- More Steps than there are cells from `ip` on end in FAULTED: each that commits uses up a cell. -/
theorem run_faults {n : Nat} {s : State} (h : s.params.memSize - s.ip < n) :
    ∃ t : State, Host.Core.run Sys2Proof.core n s = .next t ∧ t.phase = .faulted := by
  induction n generalizing s with
  | zero => omega
  | succ n ih =>
    obtain ⟨t, ht⟩ := step_total s
    rw [run_succ_of_next n ht]
    by_cases hp : t.phase = .faulted
    · exact ⟨t, run_of_faulted hp n, hp⟩
    · obtain ⟨hlt, hle, hparams⟩ := step_committed_ip ht hp
      exact ih (by rw [hparams]; omega)

theorem runSteps_succ_of_next {s t : State} (k : Nat) (h : step s = .next t) :
    runSteps (k + 1) s = if t.phase = .faulted then .next t else runSteps k t := by
  simp only [runSteps, h]

/-- A Step at a cell that holds 0 is a NOP: it moves `ip` by 1 and begins the run. -/
theorem step_of_cell_zero {s : State} (hp : s.phase ≠ .faulted) (hip : s.ip < s.params.memSize)
    (h0 : s.cell s.ip = 0) : step s = .next (s.beginStep.commit Opcode.nop.arity .nothing) := by
  rw [step_of_decode_ok hp (decode_fetchWindow_of_cell_zero hip h0), exec_nop]

/-! ### The statements -/

/-- Settles O6: the phase gate passes and the fetch answers, so the Step is the execution. -/
theorem stepRunsTheDecodedInstruction : Obligations.StepRunsTheDecodedInstruction :=
  fun _ _ => step_of_decode_ok

/-- Settles O7: what stands at `ip` is what is fetched. -/
theorem stepRunsTheInstructionEncodedAtIp : Obligations.StepRunsTheInstructionEncodedAtIp :=
  fun _ _ hp hin h => step_of_decode_ok hp (decode_fetchWindow_of_encoded hin h)

/-- Settles O8: the opcode is judged before any other word is looked for, so this holds in the last cell too. -/
theorem illegalOpcodeWordFaults : Obligations.IllegalOpcodeWordFaults := by
  intro s hp hip hop
  obtain ⟨t, hstep, ht⟩ := step_illegal_opcode hp hip hop
  exact ⟨t, hstep, ht, ht.kind_detail⟩

/-- Settles O9: fetch stops at the end of memory, and the first word it lacks decides the fault. -/
theorem fetchPastTheLastCellFaults : Obligations.FetchPastTheLastCellFaults := by
  intro s hp
  refine ⟨fun hip => ?_, fun hip h1 h6 => ?_, fun hip h1 h6 => ?_⟩
  · obtain ⟨t, hstep, ht⟩ := step_no_opcode hp hip
    exact ⟨t, hstep, ht, ht.kind_detail⟩
  · obtain ⟨t, hstep, ht⟩ := step_missing_first hp hip h1 h6
    exact ⟨t, hstep, ht, ht.kind_detail⟩
  · obtain ⟨t, hstep, ht⟩ := step_missing_second hp hip h1 h6
    exact ⟨t, hstep, ht, ht.kind_detail⟩

/-- Settles O12: every Step answers, and the reply is read off the state it leaves. -/
theorem stepAlwaysAnswersOkOrFault : Obligations.StepAlwaysAnswersOkOrFault := by
  intro s
  obtain ⟨t, ht⟩ := step_total s
  exact ⟨t, ht, by simp only [serve, ht, State.stepReply]⟩

/-- Settles O13: a Step that commits moves `ip` forward inside the memory, and one that faults leaves it. -/
theorem ipNeverDecreasesAndStaysInside : Obligations.IpNeverDecreasesAndStaysInside := by
  intro s t h
  by_cases ht : t.phase = .faulted
  · rw [step_faulted_ip h ht]
    exact ⟨le_rfl, id⟩
  · obtain ⟨hlt, hle, -⟩ := step_committed_ip h ht
    exact ⟨hlt.le, fun _ => hle⟩

/-- Settles O14: a commit leaves the phase RUNNING, and every other end of a Step is FAULTED. -/
theorem stepLeavesRunningOrFaulted : Obligations.StepLeavesRunningOrFaulted := by
  intro s t h
  refine ⟨?_, fun hp => ?_⟩
  · by_cases ht : t.phase = .faulted
    · exact .inr ht
    · obtain ⟨i, w, -, -, rfl⟩ := step_committed h ht
      exact .inl (State.commit_phase _ _ _)
  · rw [step_of_faulted hp] at h
    exact (Host.Outcome.next.inj h).symm

/-- Settles O15: there is one Step more than there are cells left. -/
theorem everyRunFaultsWithinTheMemory : Obligations.EveryRunFaultsWithinTheMemory :=
  fun _ => run_faults (Nat.lt_succ_self _)

/-- Settles O16, by induction on the number of Steps: the Steps a stopped run leaves out are Steps in FAULTED. -/
theorem stoppingAtTheFirstFaultLosesNothing : Obligations.StoppingAtTheFirstFaultLosesNothing := by
  intro k
  induction k with
  | zero => exact fun _ => rfl
  | succ k ih =>
    intro s
    obtain ⟨t, ht⟩ := step_total s
    rw [runSteps_succ_of_next k ht, run_succ_of_next k ht]
    split
    · next hp => exact (run_of_faulted hp k).symm
    · exact ih t

/-- Settles O17, by induction on the number of cells: a NOP leaves the cells after it as they were. -/
theorem zeroCellsRunAsNops : Obligations.ZeroCellsRunAsNops := by
  intro k
  induction k with
  | zero => exact fun s _ _ _ => ⟨s, rfl, rfl, rfl, rfl, rfl, rfl, fun h => absurd h (Nat.lt_irrefl 0)⟩
  | succ k ih =>
    intro s hp hin h0
    have hstep := step_of_cell_zero hp (by omega) (h0 s.ip le_rfl (by omega))
    have hip : (s.beginStep.commit Opcode.nop.arity .nothing).ip = s.ip + 1 := rfl
    obtain ⟨t, hrun, htip, hx, hmem, hfault, hparams, hphase⟩ :=
      ih (s.beginStep.commit Opcode.nop.arity .nothing) (by simp)
        (by rw [hip, State.commit_params, State.beginStep_params]; omega)
        fun a ha hlt => h0 a (by omega) (by omega)
    refine ⟨t, by rw [run_succ_of_next k hstep, hrun], by omega, hx, hmem, hfault.trans (State.commit_fault _ _ _),
      hparams.trans (State.commit_params _ _ _), fun _ => ?_⟩
    obtain rfl | hk := Nat.eq_zero_or_pos k
    · cases hrun
      rfl
    · exact hphase hk

end Sys2Proof.Machine

/-!
PROOFS. Opcodes 2 to 6 (42_mov_register.md, 43_mov_load.md, 44_mov_store.md): what each reports when a check fails, in
the order of 40_dispatch.md R69, and the one write it makes when none does.
-/

namespace Sys2Proof.Machine

/-! ### The ends of a MOV -/

/-- A write to a cell changes that cell and nothing else (00_scope.md R12). -/
theorem wroteCell_writeCell {s : State} (hm : s.mem.wf = true) (a : Nat) (v : Int) :
    WroteCell s (s.writeCell a v) a v s.ip where
  stored := by rw [State.cell, State.writeCell_mem, Memory.read_write a a v hm, if_pos rfl]
  others b hb := by rw [State.cell, State.writeCell_mem, Memory.read_write a b v hm, if_neg hb, State.cell]
  registers _ := rfl
  ip := rfl
  phase := rfl
  record := rfl
  params := rfl

/-- A commit of a staged store changes that cell and `ip`, and nothing else (40_dispatch.md R70, R72). -/
theorem wroteCell_commit_cell {s : State} (hm : s.mem.wf = true) (n a : Nat) (v : Int) :
    WroteCell s (s.commit n (.cell a v)) a v (s.ip + 1 + n) :=
  { wroteCell_writeCell hm a v with ip := s.commit_ip n (.cell a v) }

/-- A MOV that stages a register write makes it. -/
theorem exec_wroteRegister {i : Instr} {s : State} {r : Reg} {v : Int} (hi : i.opcode.arity = 2)
    (h : stageOf i s = .ok (.reg r v)) : ∃ t, exec i s = .next t ∧ WroteRegister s t r v (s.ip + 3) :=
  ⟨_, exec_of_stageOf_ok h, hi ▸ wroteRegister_commit_reg s _ r v⟩

/-- A MOV that stages a store makes it. -/
theorem exec_wroteCell {i : Instr} {s : State} {a : Nat} {v : Int} (hm : s.mem.wf = true) (hi : i.opcode.arity = 2)
    (h : stageOf i s = .ok (.cell a v)) : ∃ t, exec i s = .next t ∧ WroteCell s t a v (s.ip + 3) :=
  ⟨_, exec_of_stageOf_ok h, hi ▸ wroteCell_commit_cell hm _ a v⟩

/-- An instruction with a failed check takes its fault and changes nothing. -/
theorem exec_tookFault {i : Instr} {s : State} {f : Fault} {k : BitVec 2} {v : Int}
    (h : stageOf i s = .error { cause := f, word := k, value := v }) :
    ∃ t, exec i s = .next t ∧ TookFault s t f k v :=
  ⟨_, exec_of_stageOf_error h, tookFault_takeFault s _⟩

/-! ### The first check that fails -/

/-- A check that passes hands what it answers to the next one. -/
@[simp] theorem except_ok_bind {ε α β : Type} (a : α) (f : α → Except ε β) : (Except.ok a >>= f) = f a := rfl

/-- The first check that fails is the only one reported (40_dispatch.md R69). -/
@[simp] theorem except_error_bind {ε α β : Type} (e : ε) (f : α → Except ε β) : (Except.error e >>= f) = .error e := rfl

section
variable {s : State} {w1 : Int} (w2 : Int) (r : Reg)

theorem stageMovRR_bad_target (h : BadIndex w1) :
    stageMovRR w1 w2 s = .error { cause := .regIndex, word := 1, value := w1 } := by
  simp only [stageMovRR, checkReg_bad 1 h, except_error_bind]

theorem stageMovRMem_bad_target (h : BadIndex w1) :
    stageMovRMem w1 w2 s = .error { cause := .regIndex, word := 1, value := w1 } := by
  simp only [stageMovRMem, checkReg_bad 1 h, except_error_bind]

theorem stageMovRInd_bad_target (h : BadIndex w1) :
    stageMovRInd w1 w2 s = .error { cause := .regIndex, word := 1, value := w1 } := by
  simp only [stageMovRInd, checkReg_bad 1 h, except_error_bind]

theorem stageMovMemR_bad_address (h : BadAddress s w1) :
    stageMovMemR w1 w2 s = .error { cause := .memDirect, word := 1, value := w1 } := by
  simp only [stageMovMemR, State.checkDirect_bad 1 h, except_error_bind]

theorem stageMovIndR_bad_addrReg (h : BadIndex w1) :
    stageMovIndR w1 w2 s = .error { cause := .regIndex, word := 1, value := w1 } := by
  simp only [stageMovIndR, checkReg_bad 1 h, except_error_bind]

theorem stageMovIndR_bad_address {p : Reg} (h : BadAddress s (s.x.get p)) :
    stageMovIndR p.index w2 s = .error { cause := .memIndirect, word := 1, value := s.x.get p } := by
  simp only [stageMovIndR, checkReg_index, State.checkIndirect_bad 1 h, except_ok_bind, except_error_bind]

variable {w2}

theorem stageMovRR_bad_source (h : BadIndex w2) :
    stageMovRR r.index w2 s = .error { cause := .regIndex, word := 2, value := w2 } := by
  simp only [stageMovRR, checkReg_index, checkReg_bad 2 h, except_ok_bind, except_error_bind]

theorem stageMovRMem_bad_address (h : BadAddress s w2) :
    stageMovRMem r.index w2 s = .error { cause := .memDirect, word := 2, value := w2 } := by
  simp only [stageMovRMem, checkReg_index, State.checkDirect_bad 2 h, except_ok_bind, except_error_bind]

theorem stageMovRInd_bad_addrReg (h : BadIndex w2) :
    stageMovRInd r.index w2 s = .error { cause := .regIndex, word := 2, value := w2 } := by
  simp only [stageMovRInd, checkReg_index, checkReg_bad 2 h, except_ok_bind, except_error_bind]

theorem stageMovRInd_bad_address {q : Reg} (h : BadAddress s (s.x.get q)) :
    stageMovRInd r.index q.index s = .error { cause := .memIndirect, word := 2, value := s.x.get q } := by
  simp only [stageMovRInd, checkReg_index, State.checkIndirect_bad 2 h, except_ok_bind, except_error_bind]

theorem stageMovMemR_bad_source {a : Nat} (ha : a < s.params.memSize) (h : BadIndex w2) :
    stageMovMemR a w2 s = .error { cause := .regIndex, word := 2, value := w2 } := by
  simp only [stageMovMemR, State.checkDirect_cell 1 ha, checkReg_bad 2 h, except_ok_bind, except_error_bind]

theorem stageMovIndR_bad_source {p : Reg} {a : Nat} (hp : s.x.get p = (a : Int)) (ha : a < s.params.memSize)
    (h : BadIndex w2) : stageMovIndR p.index w2 s = .error { cause := .regIndex, word := 2, value := w2 } := by
  simp only [stageMovIndR, checkReg_index, State.checkIndirect_cell 1 hp ha, checkReg_bad 2 h, except_ok_bind,
    except_error_bind]

end

/-! ### The statements -/

/-- Settles O20: the target word is checked, then the source word, and the source is read from the state before. -/
theorem movRRCopiesTheSource : Obligations.MovRRCopiesTheSource := by
  intro s w1 w2
  refine ⟨decode_value_cons_cons .movRR w1 w2 [], ?_, fun h => exec_tookFault (stageMovRR_bad_target w2 h), ?_⟩
  · rintro r q rfl rfl
    exact exec_wroteRegister rfl (stageMovRR_ok r q s)
  · rintro r rfl h
    exact exec_tookFault (stageMovRR_bad_source r h)

/-- Settles O21: the target word is checked, then the address. -/
theorem movRMemLoadsTheCell : Obligations.MovRMemLoadsTheCell := by
  intro s w1 w2
  refine ⟨decode_value_cons_cons .movRMem w1 w2 [], ?_, fun h => exec_tookFault (stageMovRMem_bad_target w2 h), ?_⟩
  · rintro r a rfl rfl ha
    exact exec_wroteRegister rfl (stageMovRMem_ok r ha)
  · rintro r rfl h
    exact exec_tookFault (stageMovRMem_bad_address r h)

/-- Settles O22: the target word is checked, then the address register's word, then the value it holds. -/
theorem movRIndLoadsThroughTheRegister : Obligations.MovRIndLoadsThroughTheRegister := by
  intro s w1 w2
  refine ⟨decode_value_cons_cons .movRInd w1 w2 [], ?_, fun h => exec_tookFault (stageMovRInd_bad_target w2 h), ?_, ?_⟩
  · rintro r q a rfl rfl hq ha
    exact exec_wroteRegister rfl (stageMovRInd_ok r hq ha)
  · rintro r rfl h
    exact exec_tookFault (stageMovRInd_bad_addrReg r h)
  · rintro r q rfl rfl h
    exact exec_tookFault (stageMovRInd_bad_address r h)

/-- Settles O23: the address is checked, then the source word. -/
theorem movMemRStoresTheRegister : Obligations.MovMemRStoresTheRegister := by
  intro s w1 w2 hm
  refine ⟨decode_value_cons_cons .movMemR w1 w2 [], ?_, fun h => exec_tookFault (stageMovMemR_bad_address w2 h), ?_⟩
  · rintro a q rfl ha rfl
    exact exec_wroteCell hm rfl (stageMovMemR_ok q ha)
  · rintro a rfl ha h
    exact exec_tookFault (stageMovMemR_bad_source ha h)

/-- Settles O24: the address register's word is checked, then the value it holds, then the source word. -/
theorem movIndRStoresThroughTheRegister : Obligations.MovIndRStoresThroughTheRegister := by
  intro s w1 w2 hm
  refine ⟨decode_value_cons_cons .movIndR w1 w2 [], ?_, fun h => exec_tookFault (stageMovIndR_bad_addrReg w2 h), ?_, ?_⟩
  · rintro p q a rfl hp ha rfl
    exact exec_wroteCell hm rfl (stageMovIndR_ok q hp ha)
  · rintro p rfl h
    exact exec_tookFault (stageMovIndR_bad_address w2 h)
  · rintro p a rfl hp ha h
    exact exec_tookFault (stageMovIndR_bad_source hp ha h)

end Sys2Proof.Machine

/-!
PROOFS. The frame family (10_state.md §2, §4; 40_dispatch.md §4): which register and which cell an instruction can
change, and on which parts of the state it depends.
-/

namespace Sys2Proof.Machine

/-! ### What a commit can change -/

/-- A register that a commit changes is the one staged. -/
theorem staged_reg_of_get_ne {s : State} {n : Nat} {w : Staged} {q : Reg} (h : (s.commit n w).x.get q ≠ s.x.get q) :
    ∃ v, w = .reg q v := by
  cases w with
  | nothing => exact absurd rfl h
  | cell a v => exact absurd rfl h
  | reg r v =>
    by_cases hq : q = r
    · exact ⟨v, by rw [hq]⟩
    · exact absurd ((wroteRegister_commit_reg s n r v).others q hq) h

/-- A cell that a commit changes is the one staged, and it holds the word staged. -/
theorem staged_cell_of_cell_ne {s : State} {n : Nat} {w : Staged} {b : Nat} (hm : s.mem.wf = true)
    (h : (s.commit n w).cell b ≠ s.cell b) : w = .cell b ((s.commit n w).cell b) := by
  cases w with
  | nothing => exact absurd rfl h
  | reg r v => exact absurd rfl h
  | cell a v =>
    have hw := wroteCell_commit_cell hm n a v
    by_cases hb : b = a
    · rw [hb, hw.stored]
    · exact absurd (hw.others b hb) h

/-- A register that an instruction changes is the one it stages. -/
theorem exec_staged_reg {i : Instr} {s t : State} {q : Reg} (h : exec i s = .next t) (hq : t.x.get q ≠ s.x.get q) :
    ∃ v, stageOf i s = .ok (.reg q v) := by
  obtain ⟨w, hw, rfl⟩ | ⟨r, -, -, rfl⟩ := exec_cases h
  · obtain ⟨v, rfl⟩ := staged_reg_of_get_ne hq
    exact ⟨v, hw⟩
  · exact absurd rfl hq

/-- A cell that an instruction changes is the one it stages. -/
theorem exec_staged_cell {i : Instr} {s t : State} {b : Nat} (hm : s.mem.wf = true) (h : exec i s = .next t)
    (hb : t.cell b ≠ s.cell b) : stageOf i s = .ok (.cell b (t.cell b)) := by
  obtain ⟨w, hw, rfl⟩ | ⟨r, -, -, rfl⟩ := exec_cases h
  · rw [hw, ← staged_cell_of_cell_ne hm hb]
  · exact absurd rfl hb

/-! ### What an instruction stages -/

/-- A staged register write is the target of opcode 1, 2, 3 or 4. -/
theorem targetRegister_of_staged_reg {i : Instr} {s : State} {q : Reg} {v : Int}
    (h : stageOf i s = .ok (.reg q v)) : targetRegister i = some q := by
  obtain hw | ⟨r, u, hw, ht⟩ | ⟨a, u, hw, -⟩ := staged_names h
  · cases hw
  · cases hw
    exact ht
  · cases hw

/-- A staged store is at the address the store names. -/
theorem storeAddress_of_staged_cell {i : Instr} {s : State} {b : Nat} {v : Int}
    (h : stageOf i s = .ok (.cell b v)) : storeAddress s i = some b := by
  obtain hw | ⟨r, u, hw, -⟩ | ⟨a, u, hw, ha⟩ := staged_names h
  · cases hw
  · cases hw
  · cases hw
    exact ha

/-- The instructions with a target are opcodes 1 to 4, and their first operand word indexes it. -/
theorem exists_of_targetRegister {i : Instr} {q : Reg} (h : targetRegister i = some q) :
    ∃ w : Int, i = .movRImm q.index w ∨ i = .movRR q.index w ∨ i = .movRMem q.index w ∨ i = .movRInd q.index w := by
  cases i with
  | nop => cases h
  | movRImm w1 w2 => exact ⟨w2, .inl (by rw [Reg.ofWord?_eq_some.mp h])⟩
  | movRR w1 w2 => exact ⟨w2, .inr (.inl (by rw [Reg.ofWord?_eq_some.mp h]))⟩
  | movRMem w1 w2 => exact ⟨w2, .inr (.inr (.inl (by rw [Reg.ofWord?_eq_some.mp h])))⟩
  | movRInd w1 w2 => exact ⟨w2, .inr (.inr (.inr (by rw [Reg.ofWord?_eq_some.mp h])))⟩
  | movMemR w1 w2 => cases h
  | movIndR w1 w2 => cases h

/-- A staged store is opcode 5 or 6, and it stores the word of its source register. -/
theorem store_of_staged_cell {i : Instr} {s : State} {b : Nat} {v : Int} (h : stageOf i s = .ok (.cell b v)) :
    ∃ q : Reg, v = s.x.get q ∧
      (i = .movMemR (b : Int) q.index ∨ ∃ p : Reg, s.x.get p = (b : Int) ∧ i = .movIndR p.index q.index) := by
  obtain ⟨-, hw⟩ | ⟨r, u, -, hw⟩ | ⟨r, q, -, hw⟩ | ⟨r, a, -, -, hw⟩ | ⟨r, q, a, -, -, -, hw⟩ |
    ⟨q, a, -, rfl, hw⟩ | ⟨p, q, a, -, hp, rfl, hw⟩ := stageOf_ok_cases h
  iterate 5 cases hw
  · cases hw
    exact ⟨q, rfl, .inl rfl⟩
  · cases hw
    exact ⟨q, rfl, .inr ⟨p, hp, rfl⟩⟩

/-- No instruction names both a register and a cell. -/
theorem targetRegister_eq_none_or_storeAddress_eq_none (i : Instr) (s : State) :
    targetRegister i = none ∨ storeAddress s i = none := by
  cases i with
  | movMemR | movIndR => exact .inl rfl
  | _ => exact .inr rfl

theorem storeAddress_beginStep (s : State) (i : Instr) : storeAddress s.beginStep i = storeAddress s i := by
  cases i <;> rfl

/-! ### On what an instruction depends -/

/-- An instruction reads registers, cells and MEM_SIZE, and nothing else. -/
theorem stageOf_congr {s t : State} (hx : t.x = s.x) (hc : ∀ a, t.cell a = s.cell a)
    (hm : t.params.memSize = s.params.memSize) (i : Instr) : stageOf i t = stageOf i s := by
  have hvalid : ∀ a, t.validAddr a = s.validAddr a := fun a => by simp only [State.validAddr, hm]
  have hdir : ∀ k w, t.checkDirect k w = s.checkDirect k w := fun k w => by
    simp only [State.checkDirect, hvalid]
  have hind : ∀ k r, t.checkIndirect k r = s.checkIndirect k r := fun k r => by
    simp only [State.checkIndirect, hvalid, hx]
  cases i with
  | nop => rfl
  | movRImm => rfl
  | movRR => simp only [stageOf, stageMovRR, hx]
  | movRMem => simp only [stageOf, stageMovRMem, hdir, hc]
  | movRInd => simp only [stageOf, stageMovRInd, hind, hc]
  | movMemR => simp only [stageOf, stageMovMemR, hdir, hx]
  | movIndR => simp only [stageOf, stageMovIndR, hind, hx]

theorem State.commit_with_params (s : State) (p : Params) (n : Nat) (w : Staged) :
    ({ s with params := p } : State).commit n w = { s.commit n w with params := p } := by
  cases w <;> rfl

/-- Where no store is staged, a commit does the same on any memory and leaves it. -/
theorem State.commit_with_mem (s : State) (m : Memory) (n : Nat) {w : Staged} (hw : ∀ a v, w ≠ .cell a v) :
    (s.commit n w).mem = s.mem ∧
      ({ s with mem := m } : State).commit n w = { s.commit n w with mem := m } := by
  cases w with
  | nothing => exact ⟨rfl, rfl⟩
  | reg r v => exact ⟨rfl, rfl⟩
  | cell a v => exact absurd rfl (hw a v)

/-- The checks and sources of opcodes 0, 1 and 2 are words and registers. -/
theorem stageOf_register_instr {i : Instr} (hi : i = .nop ∨ ∃ w1 w2, i = .movRImm w1 w2 ∨ i = .movRR w1 w2)
    (s : State) (m : Memory) :
    stageOf i { s with mem := m } = stageOf i s ∧ storeAddress s i = none := by
  obtain rfl | ⟨w1, w2, rfl | rfl⟩ := hi <;> exact ⟨rfl, rfl⟩

/-! ### The statements -/

/-- Settles O25: the register changed is the one staged, and that is the target. -/
theorem onlyTheTargetOfAMoveChanges : Obligations.OnlyTheTargetOfAMoveChanges := by
  intro i s t q h hq
  obtain ⟨v, hv⟩ := exec_staged_reg h hq
  exact exists_of_targetRegister (targetRegister_of_staged_reg hv)

/-- Settles O26: the cell changed is the one staged, and only stores stage a cell. -/
theorem onlyAStoreToTheCellChangesIt : Obligations.OnlyAStoreToTheCellChangesIt :=
  fun _ _ _ _ hm h ha => store_of_staged_cell (exec_staged_cell hm h ha)

/-- Settles O27: a decoded instruction changes only what it stages, and a Step that decodes none only faults. -/
theorem stepWritesAtMostOneRegisterOrCell : Obligations.StepWritesAtMostOneRegisterOrCell := by
  intro s t hm h
  by_cases hp : s.phase = .faulted
  · rw [step_of_faulted hp] at h
    cases h
    exact ⟨fun i _ => ⟨fun _ _ => rfl, fun _ _ => rfl, targetRegister_eq_none_or_storeAddress_eq_none i s⟩,
      fun _ => ⟨rfl, rfl⟩⟩
  · refine ⟨fun i hd => ⟨fun q hq => ?_, fun b hb => ?_, targetRegister_eq_none_or_storeAddress_eq_none i s⟩,
      fun hd => ?_⟩
    · rw [step_of_decode_ok hp hd] at h
      by_contra hne
      obtain ⟨v, hv⟩ := exec_staged_reg h hne
      exact hq (targetRegister_of_staged_reg hv)
    · rw [step_of_decode_ok hp hd] at h
      by_contra hne
      exact hb (storeAddress_beginStep s i ▸ storeAddress_of_staged_cell (exec_staged_cell hm h hne))
    · cases he : decode s.fetchWindow with
      | ok i => exact absurd he (hd i)
      | error e =>
        rw [step_of_decode_error hp he] at h
        cases h
        exact ⟨rfl, rfl⟩

/-- Settles O28: what these opcodes stage does not depend on the memory and is no store. -/
theorem registerInstructionsIgnoreMemory : Obligations.RegisterInstructionsIgnoreMemory := by
  intro i s m hi
  obtain ⟨hstage, hstore⟩ := stageOf_register_instr hi s m
  cases hs : stageOf i s with
  | ok w =>
    obtain ⟨hmem, hcommit⟩ := s.commit_with_mem m i.opcode.arity (w := w) fun a v hw => by
      subst hw
      rw [storeAddress_of_staged_cell hs] at hstore
      cases hstore
    exact ⟨_, exec_of_stageOf_ok hs, hmem, by rw [exec_of_stageOf_ok (hstage.trans hs), hcommit]⟩
  | error r => exact ⟨_, exec_of_stageOf_error hs, rfl, exec_of_stageOf_error (hstage.trans hs)⟩

/-- Settles O29: the checks read MEM_SIZE alone among the parameters, and a commit reads none. -/
theorem instructionsDoNotDependOnTheWordWidth : Obligations.InstructionsDoNotDependOnTheWordWidth := by
  intro i s t p hp h
  have hstage : stageOf i { s with params := p } = stageOf i s :=
    stageOf_congr (s := s) (t := { s with params := p }) rfl (fun _ => rfl) hp i
  obtain ⟨w, hw, rfl⟩ | ⟨r, hr, -, rfl⟩ := exec_cases h
  · rw [exec_of_stageOf_ok (hstage.trans hw), State.commit_with_params]
  · exact exec_of_stageOf_error (hstage.trans hr)

end Sys2Proof.Machine

/-!
PROOFS. The register file has no special register (10_state.md §2): renaming the registers is a simulation.
-/

namespace Sys2Proof.Machine

/-- A staged write with its register renamed by `π`. -/
def Staged.rename (π : Reg → Reg) : Staged → Staged
  | .nothing => .nothing
  | .reg r v => .reg (π r) v
  | .cell a v => .cell a v

/-! ### The checks on renamed operands -/

@[simp] theorem renameOperand_index (π : Reg → Reg) (r : Reg) : renameOperand π r.index = (π r).index := by
  simp [renameOperand]

theorem renameOperand_bad (π : Reg → Reg) {w : Int} (h : w < 0 ∨ 3 < w) : renameOperand π w = w := by
  simp [renameOperand, Reg.ofWord?_eq_none.mpr h]

/-- A renamed operand names the renamed register, or it is reported as it stands. -/
theorem checkReg_renameOperand (π : Reg → Reg) (k : BitVec 2) (w : Int) :
    checkReg k (renameOperand π w) = (checkReg k w).map π := by
  obtain ⟨r, rfl⟩ | hw := Reg.word_cases w
  · rw [renameOperand_index, checkReg_index, checkReg_index]
    rfl
  · rw [renameOperand_bad π hw, checkReg_bad k hw]
    rfl

section
variable {π : Reg → Reg} {s s' : State}

theorem Renamed.cell (h : Renamed π s s') (a : Nat) : s'.cell a = s.cell a := by
  rw [State.cell, h.memory, State.cell]

theorem Renamed.checkDirect (h : Renamed π s s') (k : BitVec 2) (w : Int) :
    s'.checkDirect k w = s.checkDirect k w := by
  simp only [State.checkDirect, State.validAddr_of_params_eq h.params]

/-- A renamed address register holds the same value, so the check answers or reports the same. -/
theorem Renamed.checkIndirect (h : Renamed π s s') (k : BitVec 2) (r : Reg) :
    s'.checkIndirect k (π r) = s.checkIndirect k r := by
  simp only [State.checkIndirect, State.validAddr_of_params_eq h.params, h.registers]

end

/-! ### The simulation -/

theorem except_map_bind {ε α β γ : Type} (x : Except ε α) (f : α → β) (g : β → Except ε γ) :
    (x.map f >>= g) = (x >>= fun a => g (f a)) := by
  cases x <;> rfl

theorem except_bind_map {ε α β γ : Type} (x : Except ε α) (f : α → Except ε β) (g : β → γ) :
    (x >>= f).map g = (x >>= fun a => (f a).map g) := by
  cases x <;> rfl

theorem except_pure_map {ε α β : Type} (a : α) (g : α → β) :
    (pure a : Except ε α).map g = pure (g a) := rfl

/-- The renamed instruction stages the renamed write, or reports the same failed check. -/
theorem stageOf_renameInstr {π : Reg → Reg} {s s' : State} (h : Renamed π s s') (i : Instr) :
    stageOf (renameInstr π i) s' = (stageOf i s).map (Staged.rename π) := by
  cases i with
  | nop => rfl
  | movRImm w1 w2 =>
    simp only [renameInstr, stageOf, stageMovRImm, checkReg_renameOperand, except_map_bind, except_bind_map,
      except_pure_map, Staged.rename]
  | movRR w1 w2 =>
    simp only [renameInstr, stageOf, stageMovRR, checkReg_renameOperand, except_map_bind, except_bind_map,
      except_pure_map, Staged.rename, h.registers]
  | movRMem w1 w2 =>
    simp only [renameInstr, stageOf, stageMovRMem, checkReg_renameOperand, except_map_bind, except_bind_map,
      except_pure_map, Staged.rename, h.checkDirect, h.cell]
  | movRInd w1 w2 =>
    simp only [renameInstr, stageOf, stageMovRInd, checkReg_renameOperand, except_map_bind, except_bind_map,
      except_pure_map, Staged.rename, h.checkIndirect, h.cell]
  | movMemR w1 w2 =>
    simp only [renameInstr, stageOf, stageMovMemR, checkReg_renameOperand, except_map_bind, except_bind_map,
      except_pure_map, Staged.rename, h.checkDirect, h.registers]
  | movIndR w1 w2 =>
    simp only [renameInstr, stageOf, stageMovIndR, checkReg_renameOperand, except_map_bind, except_bind_map,
      except_pure_map, Staged.rename, h.checkIndirect, h.registers]

theorem opcode_renameInstr (π : Reg → Reg) (i : Instr) : (renameInstr π i).opcode = i.opcode := by
  cases i <;> rfl

/-- A renaming that keeps registers apart survives a write to a register and to its renamed one. -/
theorem get_set_rename {π : Reg → Reg} (hπ : Function.Injective π) {x x' : RegFile}
    (h : ∀ q, x'.get (π q) = x.get q) (r : Reg) (v : Int) (q : Reg) :
    (x'.set (π r) v).get (π q) = (x.set r v).get q := by
  simp only [RegFile.get_set, hπ.eq_iff, h]

theorem Renamed.commit {π : Reg → Reg} (hπ : Function.Injective π) {s s' : State} (h : Renamed π s s') (n : Nat)
    (w : Staged) : Renamed π (s.commit n w) (s'.commit n (w.rename π)) where
  registers := by
    cases w with
    | reg r v => exact get_set_rename hπ h.registers r v
    | _ => exact h.registers
  memory := by
    cases w with
    | cell a v => exact congrArg (Memory.write · a v) h.memory
    | _ => exact h.memory
  ip := by rw [State.commit_ip, State.commit_ip, h.ip]
  phase := by rw [State.commit_phase, State.commit_phase, h.phase]
  record := by rw [State.commit_fault, State.commit_fault, h.record]
  params := by rw [State.commit_params, State.commit_params, h.params]

theorem Renamed.takeFault {π : Reg → Reg} {s s' : State} (h : Renamed π s s') (r : Report) :
    Renamed π (s.takeFault r) (s'.takeFault r) where
  registers := h.registers
  memory := h.memory
  ip := h.ip
  phase := rfl
  record := by rw [State.takeFault_fault, State.takeFault_fault, h.ip]
  params := h.params

/-- Settles O30: the renamed instruction stages the renamed write or takes the same fault. -/
theorem registersAreInterchangeable : Obligations.RegistersAreInterchangeable := by
  intro π hπ i s s' t hs h
  have hstage := stageOf_renameInstr hs i
  obtain ⟨w, hw, rfl⟩ | ⟨r, hr, -, rfl⟩ := exec_cases h
  · rw [hw] at hstage
    exact ⟨_, exec_of_stageOf_ok hstage, opcode_renameInstr π i ▸ hs.commit hπ _ w⟩
  · rw [hr] at hstage
    exact ⟨_, exec_of_stageOf_error hstage, hs.takeFault r⟩

end Sys2Proof.Machine

/-!
PROOFS. Self-modifying code (20_memory.md §4): the Step after a store fetches what the store left.
-/

namespace Sys2Proof.Machine

/-! ### The storing Step -/

/-- A store three cells ahead, direct or through a register, is made by the Step that fetches it. -/
theorem step_store_ahead {s : State} {q : Reg} (hp : s.phase ≠ .faulted) (hm : s.mem.wf = true)
    (hip : s.ip + 3 < s.params.memSize)
    (haddr : s.cell s.ip = 5 ∧ s.cell (s.ip + 1) = ((s.ip + 3 : Nat) : Int) ∨
      s.cell s.ip = 6 ∧ ∃ p : Reg, s.cell (s.ip + 1) = p.index ∧ s.x.get p = ((s.ip + 3 : Nat) : Int))
    (hsrc : s.cell (s.ip + 2) = q.index) :
    ∃ t, step s = .next t ∧ WroteCell s.beginStep t (s.ip + 3) (s.x.get q) (s.ip + 3) := by
  have hfetch := State.fetchWindow_inside (s := s) (by omega)
  obtain ⟨hop, haddr⟩ | ⟨hop, p, hreg, haddr⟩ := haddr
  · have hd : decode s.fetchWindow = .ok (.movMemR ((s.ip + 3 : Nat) : Int) q.index) := by
      rw [hfetch, hop, haddr, hsrc]
      exact decode_value_cons_cons .movMemR _ _ []
    rw [step_of_decode_ok hp hd]
    exact exec_wroteCell (s := s.beginStep) hm rfl (stageMovMemR_ok q hip)
  · have hd : decode s.fetchWindow = .ok (.movIndR p.index q.index) := by
      rw [hfetch, hop, hreg, hsrc]
      exact decode_value_cons_cons .movIndR _ _ []
    rw [step_of_decode_ok hp hd]
    exact exec_wroteCell (s := s.beginStep) hm rfl (stageMovIndR_ok q haddr hip)

/-! ### The Step after it -/

theorem State.beginStep_of_running {t : State} (h : t.phase = .running) : t.beginStep = t := by
  rw [State.beginStep, ← h]

/-- A running Step executes the opcode in the cell at `ip`, with the words of the two cells after it. -/
theorem step_of_running_opcode {t : State} (hr : t.phase = .running) (hin : t.ip + 2 < t.params.memSize) {o : Opcode}
    (ho : t.cell t.ip = o.value) : step t = exec (o.build (t.cell (t.ip + 1)) (t.cell (t.ip + 2))) t := by
  have hd : decode t.fetchWindow = .ok (o.build (t.cell (t.ip + 1)) (t.cell (t.ip + 2))) := by
    rw [State.fetchWindow_inside hin, ho, decode_value_cons_cons]
  rw [step_of_decode_ok (by simp [hr]) hd, State.beginStep_of_running hr]

/-- A running Step at a cell that holds 0 only advances `ip`, by 1. -/
theorem step_of_running_zero {t : State} (hr : t.phase = .running) (hin : t.ip < t.params.memSize)
    (h0 : t.cell t.ip = 0) : ∃ u, step t = .next u ∧ WroteNothing t u (t.ip + 1) := by
  rw [step_of_cell_zero (by simp [hr]) hin h0, State.beginStep_of_running hr]
  exact ⟨_, rfl, wroteNothing_commit_nothing t Opcode.nop.arity⟩

/-- Settles O31: the first Step leaves the stored word in the cell at `ip`, and the second is a Step like any other. -/
theorem nextStepFetchesTheStoredWord : Obligations.NextStepFetchesTheStoredWord := by
  intro s q hp hm hip haddr hsrc
  obtain ⟨t, hstep, ht⟩ := step_store_ahead hp hm hip haddr hsrc
  have hr : t.phase = .running := ht.phase
  have hnf : t.phase ≠ .faulted := by simp [hr]
  have hms : t.params.memSize = s.params.memSize := congrArg Params.memSize ht.params
  have hword : t.cell t.ip = s.x.get q := by rw [ht.ip, ht.stored]
  have h4 : t.cell (t.ip + 1) = s.cell (s.ip + 4) := by
    rw [ht.ip]
    exact ht.others _ (by omega)
  have h5 : t.cell (t.ip + 2) = s.cell (s.ip + 5) := by
    rw [ht.ip]
    exact ht.others _ (by omega)
  have hform : s.ip + 5 < s.params.memSize → ∀ o : Opcode, s.x.get q = o.value →
      step t = exec (o.build (s.cell (s.ip + 4)) (s.cell (s.ip + 5))) t := fun hin o ho => by
    rw [step_of_running_opcode hr (by rw [ht.ip, hms]; omega) (hword.trans ho), h4, h5]
  refine ⟨t, hstep, hr, ht.ip, ht.stored, fun h0 => ?_, fun hin => ?_, fun hin h1 h6 => ?_, fun hin h1 h6 => ?_,
    fun hbad => ?_⟩
  · have hnop := step_of_running_zero hr (by rw [ht.ip, hms]; exact hip) (hword.trans h0)
    rwa [ht.ip] at hnop
  · exact ⟨hform hin .movRImm, hform hin .movRR, hform hin .movRMem, hform hin .movRInd, hform hin .movMemR,
      hform hin .movIndR⟩
  · exact step_missing_first hnf (by rw [ht.ip, hms]; omega) (hword ▸ h1) (hword ▸ h6)
  · exact step_missing_second hnf (by rw [ht.ip, hms]; omega) (hword ▸ h1) (hword ▸ h6)
  · exact hword ▸ step_illegal_opcode hnf (by rw [ht.ip, hms]; exact hip) (hword ▸ hbad)

end Sys2Proof.Machine

/-!
PROOFS. The canonical form of memory (20_memory.md §1; notes/assumptions/4.md): what it lists is what it reads.
-/

namespace Sys2Proof.Machine

/-- A cell reads as its reset contents or as the word listed for it. -/
theorem Memory.read_cases (m : Memory) (a : Nat) : m.read a = unlistedCell ∨ (a, m.read a) ∈ m := by
  induction m with
  | nil => exact .inl rfl
  | cons c m ih =>
    obtain ⟨b, v⟩ := c
    by_cases h : a = b
    · exact .inr (by simp [Memory.read, h])
    · simp only [Memory.read, if_neg h]
      exact ih.imp id (List.mem_cons_of_mem _)

@[simp] theorem Memory.read_cons_self (a : Nat) (v : Int) (m : Memory) : Memory.read ((a, v) :: m) a = v := by
  simp [Memory.read]

theorem Memory.read_cons_of_ne {a b : Nat} (h : b ≠ a) (v : Int) (m : Memory) :
    Memory.read ((a, v) :: m) b = m.read b := by
  simp [Memory.read, h]

/-- In canonical form no cell below the first listed one is listed. -/
theorem Memory.read_below_head {a b : Nat} {v : Int} {m : Memory} (h : Memory.wf ((a, v) :: m) = true) (hb : b < a) :
    Memory.read ((a, v) :: m) b = unlistedCell := by
  obtain ⟨-, hlt, -⟩ := Memory.wf_cons.mp h
  refine Memory.read_of_lt fun d hd => ?_
  obtain rfl | hd := List.mem_cons.mp hd
  · exact hb
  · exact hb.trans (hlt d hd)

/-- Of two canonical memories that read alike neither lists a cell below the other's first: what is listed does not read
as an unlisted cell. -/
theorem Memory.head_le_of_read_eq {a b : Nat} {v u : Int} {m n : Memory} (hm : Memory.wf ((a, v) :: m) = true)
    (hn : Memory.wf ((b, u) :: n) = true) (h : ∀ c, Memory.read ((a, v) :: m) c = Memory.read ((b, u) :: n) c) :
    b ≤ a := by
  by_contra hlt
  obtain ⟨hv, -, -⟩ := Memory.wf_cons.mp hm
  have ha := h a
  rw [Memory.read_cons_self, Memory.read_below_head hn (Nat.lt_of_not_le hlt)] at ha
  exact hv ha

/-- Settles O36, by induction on both lists: the first entries are the same, and so the rests read alike. -/
theorem canonicalMemoriesThatReadAlikeAreEqual : Obligations.CanonicalMemoriesThatReadAlikeAreEqual := by
  intro m
  induction m with
  | nil =>
    intro n _ hn h
    cases n with
    | nil => rfl
    | cons d n =>
      obtain ⟨hu, -, -⟩ := Memory.wf_cons.mp hn
      exact absurd ((Memory.read_cons_self d.1 d.2 n).symm.trans (h d.1).symm) hu
  | cons c m ih =>
    intro n hm hn h
    obtain ⟨a, v⟩ := c
    obtain ⟨hv, hma, hm'⟩ := Memory.wf_cons.mp hm
    cases n with
    | nil => exact absurd ((Memory.read_cons_self a v m).symm.trans (h a)) hv
    | cons d n =>
      obtain ⟨b, u⟩ := d
      obtain ⟨-, hna, hn'⟩ := Memory.wf_cons.mp hn
      obtain rfl : a = b :=
        le_antisymm (Memory.head_le_of_read_eq hn hm fun c => (h c).symm) (Memory.head_le_of_read_eq hm hn h)
      have hvu : v = u := by simpa using h a
      have htail : m = n := ih n hm' hn' fun c => by
        by_cases hc : c = a
        · rw [hc, Memory.read_of_lt hma, Memory.read_of_lt hna]
        · simpa only [Memory.read_cons_of_ne hc] using h c
      rw [hvu, htail]

end Sys2Proof.Machine

/-!
PROOFS. The legal states (10_state.md §3, §4, §7; 60_exceptions.md §2): reset is one, and every Step and every request
keeps them.
-/

namespace Sys2Proof

/-! ### Words -/

theorem Word.fits_iff {W : Nat} {v : Int} : Word.fits W v = true ↔
    -(2 ^ (W - 1) : Int) ≤ v ∧ v < (2 ^ (W - 1) : Int) := by
  simp [Word.fits]

theorem Word.fits_zero (W : Nat) : Word.fits W 0 = true := by
  have : (0 : Int) < 2 ^ (W - 1) := by positivity
  exact Word.fits_iff.mpr ⟨by omega, this⟩

end Sys2Proof

namespace Sys2Proof.Machine

/-! ### The reset state -/

theorem resetWith_inv {p : Params} (hp : p.wf = true) : (State.resetWith p).Inv where
  paramsLegal := hp
  memCanonical := rfl
  memInside := fun c hc => absurd hc List.not_mem_nil
  regsFit := fun r => by cases r <;> exact Word.fits_zero _
  ipInside := Nat.zero_le _
  validIffFaulted := by simp [FaultRecord.clear]
  recordLegal := by simp [FaultRecord.legal, FaultRecord.clear]
  faultIpIsIp := fun h => by cases h

/-- Settles O32: nothing is listed, every register is 0 and the record is clear. -/
theorem resetMeetsTheInvariant : Obligations.ResetMeetsTheInvariant :=
  ⟨fun _ => resetWith_inv, resetWith_inv (by decide)⟩

/-! ### What a Step reads and stages in a legal state -/

theorem State.Inv.cell_fits {s : State} (h : s.Inv) (a : Nat) : Word.fits s.params.wordBits (s.cell a) = true := by
  obtain h0 | hmem := Memory.read_cases s.mem a
  · rw [State.cell, h0]
    exact Word.fits_zero _
  · exact (h.memInside _ hmem).2

/-- The operand words of a decoded instruction come from cells. -/
theorem State.Inv.operand_fits {s : State} (h : s.Inv) {i : Instr} (hd : decode s.fetchWindow = .ok i) {v : Int}
    (hv : v ∈ i.operands) : Word.fits s.params.wordBits v = true := by
  obtain ⟨b, -, rfl⟩ := State.mem_readAhead (operand_mem_of_decode_ok hd hv)
  exact h.cell_fits b

/-- A staged write a legal state can take: a word, to a register or to a cell of the memory. -/
def Staged.Legal (p : Params) : Staged → Prop
  | .nothing => True
  | .reg _ v => Word.fits p.wordBits v = true
  | .cell a v => a < p.memSize ∧ Word.fits p.wordBits v = true

/-- A report whose record is legal: word 0, 1 or 2, and a word as the value. -/
structure Report.Legal (p : Params) (r : Report) : Prop where
  word : r.word ≠ 3
  value : Word.fits p.wordBits r.value = true

/-- An instruction stages an operand word, a register's word or a cell's. -/
theorem State.Inv.staged_legal {s : State} (h : s.Inv) {i : Instr} {w : Staged}
    (hops : ∀ v ∈ i.operands, Word.fits s.params.wordBits v = true) (hw : stageOf i s = .ok w) :
    w.Legal s.params := by
  obtain ⟨-, rfl⟩ | ⟨r, v, rfl, rfl⟩ | ⟨r, q, -, rfl⟩ | ⟨r, a, -, -, rfl⟩ | ⟨r, q, a, -, -, -, rfl⟩ |
    ⟨q, a, ha, -, rfl⟩ | ⟨p, q, a, ha, -, -, rfl⟩ := stageOf_ok_cases hw
  · exact trivial
  · exact hops v (by simp [Instr.operands])
  · exact h.regsFit q
  · exact h.cell_fits a
  · exact h.cell_fits a
  · exact ⟨ha, h.regsFit q⟩
  · exact ⟨ha, h.regsFit q⟩

/-- A failed operand check reports an operand word or a register's word. -/
theorem State.Inv.operandReport_legal {s : State} (h : s.Inv) {i : Instr} {r : Report}
    (hops : ∀ v ∈ i.operands, Word.fits s.params.wordBits v = true) (hr : OperandReport i s r) :
    r.Legal s.params := by
  obtain ⟨hword, hvalue⟩ := hr
  refine ⟨by obtain hw | hw := hword <;> rw [hw] <;> decide, ?_⟩
  obtain ⟨-, hv, -⟩ | ⟨-, hv, -⟩ | ⟨-, ⟨q, hv⟩, -⟩ := hvalue
  · exact hops _ hv
  · exact hops _ hv
  · exact hv ▸ h.regsFit q

/-- A failed fetch or decode reports a cell's word or 0. -/
theorem State.Inv.decodeReport_legal {s : State} (h : s.Inv) {e : DecodeError}
    (he : decode s.fetchWindow = .error e) : (reportOfDecode e).Legal s.params := by
  obtain ⟨rfl, -⟩ | ⟨v, rest, rfl, hw, -⟩ | ⟨v, rfl, -⟩ | ⟨v, w1, rfl, -⟩ := decode_error_cases he
  · exact ⟨by decide, Word.fits_zero _⟩
  · have hmem : v ∈ s.fetchWindow := by simp [hw]
    obtain ⟨b, -, rfl⟩ := State.mem_readAhead hmem
    exact ⟨by simp [reportOfDecode], h.cell_fits b⟩
  · exact ⟨by decide, Word.fits_zero _⟩
  · exact ⟨by decide, Word.fits_zero _⟩

/-! ### What keeps a state legal -/

/-- Each cause has one of the kinds and details of 60_exceptions.md R86 to R88. -/
theorem Report.record_legal {p : Params} {r : Report} (h : r.Legal p) {ip : Nat} (hip : ip ≤ p.memSize) :
    (r.record ip).legal p = true := by
  rw [FaultRecord.legal, Report.record, if_pos rfl, Bool.and_eq_true, Bool.and_eq_true, Bool.and_eq_true]
  exact ⟨⟨⟨by cases r.cause <;> rfl, decide_eq_true h.word⟩, h.value⟩, decide_eq_true hip⟩

/-- The phase gate keeps a state legal that is not FAULTED (10_state.md R29). -/
theorem State.Inv.beginStep {s : State} (h : s.Inv) (hp : s.phase ≠ .faulted) : s.beginStep.Inv where
  paramsLegal := h.paramsLegal
  memCanonical := h.memCanonical
  memInside := h.memInside
  regsFit := h.regsFit
  ipInside := h.ipInside
  validIffFaulted := ⟨fun hv => absurd (h.validIffFaulted.mp hv) hp, fun hf => by cases hf⟩
  recordLegal := h.recordLegal
  faultIpIsIp := fun hf => by cases hf

/-- A write of a word to a cell of the memory keeps every entry a word in a cell. -/
theorem Memory.write_inside {p : Params} {m : Memory} (hm : ∀ c ∈ m, c.1 < p.memSize ∧ Word.fits p.wordBits c.2 = true)
    {a : Nat} {v : Int} (ha : a < p.memSize) (hv : Word.fits p.wordBits v = true) :
    ∀ c ∈ m.write a v, c.1 < p.memSize ∧ Word.fits p.wordBits c.2 = true := by
  intro c hc
  obtain rfl | hc := Memory.mem_write hc
  · exact ⟨ha, hv⟩
  · exact hm c hc

theorem State.Inv.writeCell {s : State} (h : s.Inv) {a : Nat} {v : Int} (ha : a < s.params.memSize)
    (hv : Word.fits s.params.wordBits v = true) : (s.writeCell a v).Inv where
  paramsLegal := h.paramsLegal
  memCanonical := Memory.write_wf a v h.memCanonical
  memInside := Memory.write_inside h.memInside ha hv
  regsFit := h.regsFit
  ipInside := h.ipInside
  validIffFaulted := h.validIffFaulted
  recordLegal := h.recordLegal
  faultIpIsIp := h.faultIpIsIp

theorem State.Inv.writeReg {s : State} (h : s.Inv) {r : Reg} {v : Int}
    (hv : Word.fits s.params.wordBits v = true) : (s.writeReg r v).Inv where
  paramsLegal := h.paramsLegal
  memCanonical := h.memCanonical
  memInside := h.memInside
  regsFit := fun q => by
    rw [State.writeReg_x, RegFile.get_set]
    split
    · exact hv
    · exact h.regsFit q
  ipInside := h.ipInside
  validIffFaulted := h.validIffFaulted
  recordLegal := h.recordLegal
  faultIpIsIp := h.faultIpIsIp

theorem State.Inv.setIp {s : State} (h : s.Inv) (hp : s.phase ≠ .faulted) {a : Nat} (ha : a ≤ s.params.memSize) :
    (s.setIp a).Inv where
  paramsLegal := h.paramsLegal
  memCanonical := h.memCanonical
  memInside := h.memInside
  regsFit := h.regsFit
  ipInside := ha
  validIffFaulted := h.validIffFaulted
  recordLegal := h.recordLegal
  faultIpIsIp := fun hf => absurd hf hp

/-- A commit of a legal write that stays inside the memory keeps a state legal. -/
theorem State.Inv.commit {s : State} (h : s.Inv) (hp : s.phase ≠ .faulted) {n : Nat} {w : Staged}
    (hw : w.Legal s.params) (hip : s.ip + 1 + n ≤ s.params.memSize) : (s.commit n w).Inv := by
  cases w with
  | nothing => exact h.setIp hp hip
  | reg r v => exact (h.writeReg hw).setIp hp hip
  | cell a v => exact (h.writeCell hw.1 hw.2).setIp hp hip

/-- Taking a legal fault keeps a state legal. -/
theorem State.Inv.takeFault {s : State} (h : s.Inv) {r : Report} (hr : r.Legal s.params) : (s.takeFault r).Inv where
  paramsLegal := h.paramsLegal
  memCanonical := h.memCanonical
  memInside := h.memInside
  regsFit := h.regsFit
  ipInside := h.ipInside
  validIffFaulted := ⟨fun _ => rfl, fun _ => rfl⟩
  recordLegal := Report.record_legal hr h.ipInside
  faultIpIsIp := fun _ => rfl

/-- Settles O33: whatever way a Step ends, what it writes or latches is legal. -/
theorem stepKeepsTheInvariant : Obligations.StepKeepsTheInvariant := by
  intro s t h hstep
  obtain ⟨-, rfl⟩ | ⟨hp, i, w, hd, hw, rfl⟩ | ⟨hp, i, r, hd, hr, rfl⟩ | ⟨hp, e, he, rfl⟩ := step_cases hstep
  · exact h
  · have hb := h.beginStep hp
    exact hb.commit (by simp) (hb.staged_legal (fun _ => h.operand_fits hd) hw) (ip_bound_of_decode_ok hd)
  · have hb := h.beginStep hp
    exact hb.takeFault (hb.operandReport_legal (fun _ => h.operand_fits hd) hr)
  · exact (h.beginStep hp).takeFault (h.decodeReport_legal he)

/-! ### Sessions -/

/-- What every request keeps, every session keeps. -/
theorem session_induction {P : State → Prop}
    (hserve : ∀ (r : Request) (s t : State) (a : Reply), P s → serve r s = .next (t, a) → P t) {rs : List Request}
    {s t : State} {as : List Reply} (hs : P s) (h : session rs s = .next (t, as)) : P t := by
  induction rs generalizing s as with
  | nil =>
    cases h
    exact hs
  | cons r rs ih =>
    obtain ⟨u, a, bs, hr, hrest, -⟩ := session_cons_cases h
    exact ih (hserve r s u a hs hr) hrest

theorem State.acceptsWrite_iff {s : State} {a v : Int} :
    s.acceptsWrite a v = true ↔ s.phase = .loading ∧ (0 ≤ a ∧ a < (s.params.memSize : Int)) ∧
      Word.fits s.params.wordBits v = true := by
  simp only [State.acceptsWrite, Bool.and_eq_true, decide_eq_true_eq, State.validAddr_iff, and_assoc]

/-- Every request keeps a legal state legal. -/
theorem State.Inv.serve {s : State} (h : s.Inv) {r : Request} {t : State} {a : Reply}
    (hr : serve r s = .next (t, a)) : t.Inv := by
  obtain ⟨-, rfl, -⟩ | ⟨c, v, -, hacc, rfl, -⟩ | ⟨c, v, -, -, rfl, -⟩ | ⟨-, hstep, -⟩ | ⟨-, rfl, -⟩ := serve_cases hr
  · exact resetWith_inv h.paramsLegal
  · obtain ⟨-, ⟨h0, hlt⟩, hv⟩ := State.acceptsWrite_iff.mp hacc
    exact h.writeCell (by omega) hv
  · exact h
  · exact stepKeepsTheInvariant s t h hstep
  · exact h

/-- Settles O34: every request keeps a legal state legal. -/
theorem everySessionKeepsTheInvariant : Obligations.EverySessionKeepsTheInvariant :=
  fun _ _ _ _ => session_induction fun _ _ _ _ h hr => h.serve hr

theorem step_params {s t : State} (h : step s = .next t) : t.params = s.params := by
  obtain ⟨-, rfl⟩ | ⟨-, i, w, -, -, rfl⟩ | ⟨-, i, r, -, -, rfl⟩ | ⟨-, e, -, rfl⟩ := step_cases h
  · rfl
  · exact State.commit_params _ _ _
  · rfl
  · rfl

theorem serve_params {r : Request} {s t : State} {a : Reply} (h : serve r s = .next (t, a)) :
    t.params = s.params := by
  obtain ⟨-, rfl, -⟩ | ⟨c, v, -, -, rfl, -⟩ | ⟨c, v, -, -, rfl, -⟩ | ⟨-, hstep, -⟩ | ⟨-, rfl, -⟩ := serve_cases h
  · rfl
  · rfl
  · rfl
  · exact step_params hstep
  · rfl

/-- Settles O35: every request keeps the parameters. -/
theorem noRequestChangesTheParameters : Obligations.NoRequestChangesTheParameters :=
  fun _ s _ _ => session_induction (P := fun u => u.params = s.params)
    (fun _ _ _ _ hu hr => (serve_params hr).trans hu) rfl

end Sys2Proof.Machine

/-!
PROOFS. Reset and the host's requests (10_state.md §7; 60_exceptions.md §3; 70_reset_and_hazards.md §1, §2).
-/

namespace Sys2Proof.Machine

/-! ### Requests and sessions -/

theorem serve_hostWrite_accepted {s : State} {a v : Int} (h : s.acceptsWrite a v = true) :
    serve (.hostWrite a v) s = .next (s.writeCell a.toNat v, .accepted) := by
  simp only [serve, h, if_true]

theorem serve_hostWrite_refused {s : State} {a v : Int} (h : s.acceptsWrite a v = false) :
    serve (.hostWrite a v) s = .next (s, .refused) := by
  simp [serve, h]

/-- A session served is served piece by piece, with a reply to every request. -/
theorem session_append_cases {rs rs' : List Request} {s t : State} {l : List Reply}
    (h : session (rs ++ rs') s = .next (t, l)) :
    ∃ u as bs, session rs s = .next (u, as) ∧ session rs' u = .next (t, bs) ∧ l = as ++ bs ∧
      as.length = rs.length := by
  induction rs generalizing s l with
  | nil => exact ⟨s, [], l, rfl, h, rfl, rfl⟩
  | cons r rs ih =>
    obtain ⟨u, a, as, hr, hrest, rfl⟩ := session_cons_cases h
    obtain ⟨u', bs, cs, hbs, hcs, rfl, hlen⟩ := ih hrest
    exact ⟨u', a :: bs, cs, session_cons_of_next hr hbs, hcs, rfl, by rw [List.length_cons, List.length_cons, hlen]⟩

/-- What a FAULTED state replies to a request that is no Reset (60_exceptions.md R91). -/
def faultedReply (s : State) : Request → Reply
  | .reset => .accepted
  | .hostWrite _ _ => .refused
  | .step => .fault s.fault
  | .observe => .observed s.view

/-- In FAULTED no request but Reset changes anything. -/
theorem serve_of_faulted {s : State} (h : s.phase = .faulted) {r : Request} (hr : r ≠ .reset) :
    serve r s = .next (s, faultedReply s r) := by
  cases r with
  | reset => exact absurd rfl hr
  | hostWrite a v => exact serve_hostWrite_refused (by simp [State.acceptsWrite, h])
  | step => simp only [serve, step_of_faulted h, State.stepReply, h, if_true, faultedReply]
  | observe => rfl

theorem session_of_faulted {s : State} (h : s.phase = .faulted) {rs : List Request} (hrs : Request.reset ∉ rs) :
    session rs s = .next (s, rs.map (faultedReply s)) := by
  induction rs with
  | nil => rfl
  | cons r rs ih =>
    have hr : r ≠ .reset := fun hr => hrs (hr ▸ List.mem_cons_self)
    have hrest : Request.reset ∉ rs := fun hmem => hrs (List.mem_cons_of_mem r hmem)
    exact session_cons_of_next (serve_of_faulted h hr) (ih hrest)

/-! ### Loading an image -/

/-- From `s` to `t` the words of the image went to the cells from `n`, and nothing else changed. -/
structure LoadedImage (n : Nat) (image : List Int) (s t : State) : Prop where
  words : ∀ (k : Nat) (v : Int), image[k]? = some v → t.cell (n + k) = v
  others : ∀ a, a < n ∨ n + image.length ≤ a → t.cell a = s.cell a
  registers : t.x = s.x
  ip : t.ip = s.ip
  phase : t.phase = s.phase
  record : t.fault = s.fault
  params : t.params = s.params

/-- A word written to cell `n`, and then an image loaded after it, is an image loaded from `n`. -/
theorem LoadedImage.cons {n : Nat} {v : Int} {vs : List Int} {s u t : State} (hw : WroteCell s u n v s.ip)
    (hx : u.x = s.x) (h : LoadedImage (n + 1) vs u t) : LoadedImage n (v :: vs) s t where
  words k w hk := by
    cases k with
    | zero =>
      obtain rfl : v = w := Option.some.inj hk
      exact (h.others n (.inl (Nat.lt_succ_self n))).trans hw.stored
    | succ k => exact Nat.add_right_comm n 1 k ▸ h.words k w hk
  others a ha := by
    rw [List.length_cons] at ha
    exact (h.others a (by omega)).trans (hw.others a (by omega))
  registers := h.registers.trans hx
  ip := h.ip.trans hw.ip
  phase := h.phase.trans hw.phase
  record := h.record.trans hw.record
  params := h.params.trans hw.params

/-- In LOADING the HostWrites of an image that fits are all accepted. -/
theorem session_load_image {image : List Int} {n : Nat} {s : State} (hp : s.phase = .loading)
    (hm : s.mem.wf = true) (hin : n + image.length ≤ s.params.memSize)
    (hfit : ∀ v ∈ image, Word.fits s.params.wordBits v = true) :
    ∃ t as, session ((image.zipIdx n).map fun c => Request.hostWrite c.2 c.1) s = .next (t, as) ∧
      LoadedImage n image s t := by
  induction image generalizing n s with
  | nil =>
    exact ⟨s, [], rfl, fun k v hk => by simp at hk, fun _ _ => rfl, rfl, rfl, rfl, rfl, rfl⟩
  | cons v vs ih =>
    rw [List.length_cons] at hin
    have hacc : s.acceptsWrite n v = true :=
      State.acceptsWrite_iff.mpr ⟨hp, ⟨by omega, by omega⟩, hfit v List.mem_cons_self⟩
    obtain ⟨t, as, hrest, ht⟩ := ih (n := n + 1) (s := s.writeCell n v) hp (Memory.write_wf n v hm)
      (by rw [State.writeCell_params]; omega) fun u hu => hfit u (List.mem_cons_of_mem v hu)
    exact ⟨t, .accepted :: as, session_cons_of_next (serve_hostWrite_accepted hacc) hrest,
      ht.cons (wroteCell_writeCell hm n v) rfl⟩

/-! ### The statements -/

/-- Settles O37: the reset state lists no cell, and every other field is written out in it. -/
theorem resetSetsEveryPieceOfState : Obligations.ResetSetsEveryPieceOfState :=
  ⟨fun _ => rfl, fun r => by cases r <;> rfl, rfl, rfl, rfl, rfl, rfl, rfl, rfl, rfl⟩

/-- Settles O38: the parameters are all that Reset keeps, and no request before it changed them. -/
theorem resetForgetsEverythingBefore : Obligations.ResetForgetsEverythingBefore := by
  intro before after s t l h
  obtain ⟨u, as, bs, hbefore, hrest, rfl, hlen⟩ := session_append_cases h
  obtain ⟨u', a, cs, hreset, hafter, rfl⟩ := session_cons_cases hrest
  cases hreset
  have hparams : u.params = s.params := noRequestChangesTheParameters before s u as hbefore
  refine ⟨cs, hparams ▸ hafter, ?_, ?_⟩
  · rw [← hlen, List.drop_append]
    simp
  · rw [← hlen, List.getElem?_append_right le_rfl, Nat.sub_self]
    rfl

/-- Settles O39: the three conditions of acceptance, and any one failing refuses. -/
theorem hostWriteIsAcceptedOnlyInLoading : Obligations.HostWriteIsAcceptedOnlyInLoading := by
  intro s a v hm
  refine ⟨fun hp h0 hlt hv => ?_, fun hbad => ?_⟩
  · exact ⟨_, serve_hostWrite_accepted (State.acceptsWrite_iff.mpr ⟨hp, ⟨h0, hlt⟩, hv⟩), wroteCell_writeCell hm _ v⟩
  · refine serve_hostWrite_refused (Bool.eq_false_iff.mpr fun hacc => ?_)
    obtain ⟨hp, ⟨h0, hlt⟩, hv⟩ := State.acceptsWrite_iff.mp hacc
    obtain hp' | h0' | hlt' | hv' := hbad
    · exact hp' hp
    · omega
    · omega
    · exact Bool.false_ne_true (hv'.symm.trans hv)

/-- Settles O40, by induction on the session: an Observe leaves the state the next request starts from. -/
theorem observeShowsTheStateAndChangesNothing : Obligations.ObserveShowsTheStateAndChangesNothing := by
  refine ⟨fun s => ⟨s.view, rfl, rfl, rfl, rfl, rfl, rfl⟩, fun rs => ?_⟩
  induction rs with
  | nil => exact fun _ _ as h => ⟨as, h⟩
  | cons r rs ih =>
    intro s t l h
    obtain ⟨u, a, as, hr, hrest, rfl⟩ := session_cons_cases h
    obtain ⟨as', has'⟩ := ih u t as hrest
    by_cases ho : r = .observe
    · subst ho
      cases hr
      exact ⟨as', by rwa [List.filter_cons_of_neg (by simp)]⟩
    · exact ⟨a :: as', by rw [List.filter_cons_of_pos (by simpa using ho)]; exact session_cons_of_next hr has'⟩

/-- Settles O41: every request served is one that FAULTED does not heed. -/
theorem onlyResetLeavesFaulted : Obligations.OnlyResetLeavesFaulted := by
  intro rs s hp hrs
  rw [session_of_faulted hp hrs]
  refine congrArg (fun as => Host.Outcome.next (s, as)) (List.map_congr_left fun r _ => ?_)
  cases r <;> rfl

/-- Settles O42: after Reset the phase is LOADING and every cell 0, and the image is loaded from cell 0. -/
theorem bootLoadsTheImage : Obligations.BootLoadsTheImage := by
  intro image s hlen hfit
  obtain ⟨t, as, hload, ht⟩ :=
    session_load_image (image := image) (n := 0) (s := State.resetWith s.params) rfl rfl
      (by rw [Nat.zero_add]; exact hlen) hfit
  refine ⟨t, .accepted :: as, ?_, fun k v hk => ?_, fun a ha => ?_, fun r => ?_, ht.ip, ht.phase, ht.record, ht.params⟩
  · rw [bootRequests, List.replicate_zero, List.append_nil]
    exact session_cons_of_next rfl hload
  · exact Nat.zero_add k ▸ ht.words k v hk
  · exact ht.others a (.inr (by rw [Nat.zero_add]; exact ha))
  · rw [ht.registers]
    cases r <;> rfl

end Sys2Proof.Machine

/-!
PROOFS. The fault record as the host reads it (60_exceptions.md §2): its status word, cause code and two further words.
-/

namespace Sys2Proof.Machine

/-- Appended bit vectors are the digits of a number. -/
theorem toNat_append_eq_add {m n : Nat} (x : BitVec m) (y : BitVec n) :
    (x ++ y).toNat = x.toNat * 2 ^ n + y.toNat := by
  rw [BitVec.toNat_append, ← Nat.shiftLeft_add_eq_or_of_lt y.isLt, Nat.shiftLeft_eq]

theorem FaultRecord.causeCode_toNat (r : FaultRecord) : r.causeCode.toNat = r.kind.toNat * 4 + r.detail.toNat :=
  toNat_append_eq_add r.kind r.detail

/-- The seven bits of the status word fit in any word of 7 bits or more, so none is cut off. -/
theorem FaultRecord.statusWord_toNat (r : FaultRecord) {W : Nat} (hW : 7 ≤ W) :
    (r.statusWord W).toNat =
      ((r.word.toNat * 4 + r.kind.toNat) * 4 + r.detail.toNat) * 2 + (if r.valid then 1 else 0) := by
  have hvalid : (BitVec.ofBool r.valid).toNat = if r.valid then 1 else 0 := by cases r.valid <;> rfl
  have hlt : (r.word ++ r.kind ++ r.detail ++ BitVec.ofBool r.valid).toNat < 2 ^ W :=
    (BitVec.isLt _).trans_le (Nat.pow_le_pow_right (by decide) hW)
  rw [FaultRecord.statusWord, BitVec.toNat_setWidth, Nat.mod_eq_of_lt hlt, toNat_append_eq_add, toNat_append_eq_add,
    toNat_append_eq_add, hvalid]
  rfl

/-- The cause code of a record is that of its cause, whatever word, value and `ip` it records. -/
theorem Report.causeCode_record (r : Report) (ip : Nat) :
    (r.record ip).causeCode = r.cause.kind ++ r.cause.detail := rfl

/-- A legal record holds a word as its value: 0 where it is clear. -/
theorem FaultRecord.value_fits {r : FaultRecord} {p : Params} (h : r.legal p = true) :
    Word.fits p.wordBits r.value = true := by
  rw [FaultRecord.legal] at h
  split at h
  · simp only [Bool.and_eq_true] at h
    obtain ⟨⟨-, hv⟩, -⟩ := h
    exact hv
  · rw [of_decide_eq_true h]
    exact Word.fits_zero _

/-- A legal record holds an `ip` inside the memory: 0 where it is clear. -/
theorem FaultRecord.faultIp_le {r : FaultRecord} {p : Params} (h : r.legal p = true) : r.faultIp ≤ p.memSize := by
  rw [FaultRecord.legal] at h
  split at h
  · simp only [Bool.and_eq_true] at h
    obtain ⟨-, hip⟩ := h
    exact of_decide_eq_true hip
  · rw [of_decide_eq_true h]
    exact Nat.zero_le _

/-! ### The statements -/

/-- Settles O43: the fields are the digits of the status word, and the cause code is the two in the middle. -/
theorem statusWordPacksTheRecord : Obligations.StatusWordPacksTheRecord := by
  intro r W hW
  have hd := r.detail.isLt
  have hk := r.kind.isLt
  rw [r.statusWord_toNat hW, r.causeCode_toNat]
  split <;> omega

/-- Settles O44: VALUE is a W-bit word, and FAULT_IP is at most MEM_SIZE, which W bits hold. -/
theorem valueAndFaultIpReadAsWords : Obligations.ValueAndFaultIpReadAsWords := by
  intro r p hp hr
  simp only [Params.wf, Bool.and_eq_true, decide_eq_true_eq] at hp
  obtain ⟨⟨⟨hW, -⟩, hmem⟩, -⟩ := hp
  refine ⟨?_, ?_⟩
  · obtain ⟨hlo, hhi⟩ := Word.fits_iff.mp (FaultRecord.value_fits hr)
    exact BitVec.toInt_ofInt_eq_self hW hlo hhi
  · have hlt : r.faultIp < 2 ^ p.wordBits :=
      calc r.faultIp ≤ 2 ^ (p.wordBits - 1) := (FaultRecord.faultIp_le hr).trans hmem
        _ < 2 ^ p.wordBits := Nat.pow_lt_pow_right (by decide) (by omega)
    rw [FaultRecord.faultIpWord, BitVec.toNat_ofNat, Nat.mod_eq_of_lt hlt]

/-- Settles O45: each cause has its own codes. -/
theorem causeCodesOfTheFaults : Obligations.CauseCodesOfTheFaults := by
  refine ⟨by decide, fun k v ip => ?_⟩
  simp only [Report.causeCode_record]
  decide

end Sys2Proof.Machine

/-!
PROOFS. The assembly rows (30_encoding.md §5): a line with the words of an instruction's encoding encodes it.
-/

namespace Sys2Proof.Machine

/-- A line whose words are those of an instruction assembles to them, unless one does not fit. -/
theorem lineEncodes_of_words {l : AsmLine} {i : Instr} (W : Nat) (h : l.words = encode i) : LineEncodes W l i := by
  rw [LineEncodes, AsmLine.assemble, h, Instr.wf]
  exact ⟨rfl, decode_encode i⟩

/-- Settles O46: each row of 30_encoding.md R60 writes out the words of its instruction. -/
theorem everyAssemblyLineEncodesItsInstruction : Obligations.EveryAssemblyLineEncodesItsInstruction := by
  intro W
  refine ⟨lineEncodes_of_words W rfl, fun _ _ => lineEncodes_of_words W rfl, fun _ _ => lineEncodes_of_words W rfl,
    fun _ _ => lineEncodes_of_words W rfl, fun _ _ => lineEncodes_of_words W rfl,
    fun _ _ => lineEncodes_of_words W rfl, fun _ _ => lineEncodes_of_words W rfl, fun v => ?_⟩
  simp only [AsmLine.assemble, AsmLine.words, List.all_cons, List.all_nil, Bool.and_true]

end Sys2Proof.Machine
